-- ==== Sys2Proof/Word.lean ====
section
/-! DEFINITION. The word types of the transform engine (00_scope.md R9, R12): 64-bit words, bytes, and the 32-bit byte
offsets of the host port (20_memory.md R50). All are unsigned. -/

namespace Sys2Proof

/-- A byte, 0..255 (R12). -/
abbrev Byte := BitVec 8

/-- A 64-bit unsigned word, the `u64` of R9. -/
abbrev Word := BitVec 64

/-- A byte offset of a host access, measured from `ENGINE_BASE` (R50). -/
abbrev Offset := BitVec 32

end Sys2Proof
end

