-- ==== Sys2Proof/Syntax.lean ====
section
/-! DEFINITION. The commands of the engine, one constructor per row of spec/opcode_table.json (30_encoding.md R71). A
command takes no operand from its word (R77). -/

namespace Sys2Proof

/-- The commands of `TFE-CMD v1`. -/
inductive Instr where
  /-- CONFIGURE, `0x0000000000000001` (43_commands.md R165). -/
  | configure
  /-- ENCRYPT, `0x0000000000000002` (43_commands.md R170). -/
  | encrypt
  /-- DECRYPT, `0x0000000000000003` (43_commands.md R180). -/
  | decrypt
  deriving DecidableEq, Repr

end Sys2Proof
end

