-- ==== Sys2Proof/WellFormed.lean ====
section
/-! DEFINITION. Well-formedness. A command has no operand (30_encoding.md R77), so every term of `Instr` is well formed;
what can be ill formed is a command word (R70, R72): a wrong `OPC`, or a `ZERO` field that is not 0. -/

namespace Sys2Proof

/-- Every command is well formed: none has an operand that could be out of range (R77). -/
def Instr.wellFormed : Instr → Bool
  | .configure => true
  | .encrypt => true
  | .decrypt => true

/-- `OPC`, bits [7:0] of the command word, names one of the three commands (R70, R71). -/
def opcWellFormed (c : Word) : Bool :=
  c.toNat % 256 == 1 || c.toNat % 256 == 2 || c.toNat % 256 == 3

/-- `ZERO`, bits [63:8] of the command word, is 0 (R70). -/
def zeroWellFormed (c : Word) : Bool := c.toNat / 256 == 0

/-- A command word that is one of the three of R71; every other word is illegal (R72). -/
def wordWellFormed (c : Word) : Bool := opcWellFormed c && zeroWellFormed c

end Sys2Proof
end

