-- ==== Sys2Proof/Decode.lean ====
section
/-! DEFINITION. Decoding and encoding of the command word (30_encoding.md R70, R71, R72, R81). The decoder is total: every
64-bit value is one of the three commands or is illegal. -/

namespace Sys2Proof

/-- What a command word decodes to (R81). -/
inductive Decoded where
  /-- One of the three commands. -/
  | command (i : Instr)
  /-- ILLEGAL: the word is rejected by name, IllegalCommand (R72, 43_commands.md R190). -/
  | illegalCommand
  deriving DecidableEq, Repr

/-- R81: a word selects a command only if it equals the whole 64-bit value of R71. -/
def decode (c : Word) : Decoded :=
  if c = 0x0000000000000001#64 then .command .configure
  else if c = 0x0000000000000002#64 then .command .encrypt
  else if c = 0x0000000000000003#64 then .command .decrypt
  else .illegalCommand

/-- The command word of a command (R71). -/
def encode : Instr → Word
  | .configure => 0x0000000000000001#64
  | .encrypt => 0x0000000000000002#64
  | .decrypt => 0x0000000000000003#64

/-- The command word whose low `nbits` bits are those of `w` and whose other bits are 0 (R70, bit 0 least significant). -/
def tableWord (nbits w : Nat) : Word := BitVec.ofNat 64 (w % 2 ^ nbits)

/-- What the decoder reads from the opcode-table word `w` of `nbits` bits. An instruction is one 64-bit word (R78): bits
beyond it make the value no command word. -/
def decodeTableWord (nbits w : Nat) : Option Instr :=
  if w % 2 ^ nbits < 2 ^ 64 then
    match decode (tableWord nbits w) with
    | .command i => some i
    | .illegalCommand => none
  else none

end Sys2Proof
end

