-- ==== Sys2Proof/Config.lean ====
section
/-! DEFINITION. What the spec leaves to the implementation: the two parameters of 00_scope.md R8, and the bytes the
message buffer holds at reset (10_state.md R42, a free draw). The fixed values of R7 stand with the operations that use
them. -/

namespace Sys2Proof.Config

/-- The parameters a model takes as arguments (R8). `dataUnits` counts the units of 128 bytes beyond the first, so that
every value of the type is a legal `DATA_BYTES` and every legal `DATA_BYTES` is a value of the type. Log entry 1. -/
structure Params where
  /-- `DATA_BYTES / 128 - 1`. -/
  dataUnits : Fin 33554400
  /-- `ENGINE_BASE`, the address of the window in the host's address map. -/
  engineBase : Nat
  deriving DecidableEq, Repr

/-- `DATA_BYTES`: a positive multiple of 128, at most `2^32 - 0x1000` (R8). -/
def Params.dataBytes (p : Params) : Nat := 128 * (p.dataUnits.val + 1)

/-- DESIGN CHOICE (log entry 1, unsafe): the parameters `State.reset` is given, `DATA_BYTES = 4096` as in the programs of
95_test_vectors.md and `ENGINE_BASE = 0`. No statement rests on them. -/
def exampleParams : Params := { dataUnits := 31, engineBase := 0 }

/-- The free draw of `DATA` (R42; 93_implementation_defined.md I1): `dataAtReset n i` is what byte `i` of `DATA` holds
after the reset that made draw `n`, until something writes it. It has no body: nothing constrains it. Log entry 2. -/
opaque dataAtReset : Nat → Nat → Byte

end Sys2Proof.Config
end

