-- ==== Sys2Proof/Machine/State.lean ====
section
/-! DEFINITION. The state of the transform engine (10_state.md R20, R42), the host's accesses that drive it (00_scope.md
R17), the ways a step can stop, and the state after reset. -/

namespace Sys2Proof.Machine

/-- The padding modes (10_state.md R29, 30_encoding.md R74). -/
inductive PadMode where
  /-- None, encoded 0. -/
  | noPadding
  /-- LengthTagPadding, encoded 1. -/
  | lengthTag
  /-- ZeroPadding, encoded 2. -/
  | zeroPadding
  deriving DecidableEq, Repr

/-- The error kinds of `STATUS.ERR` (30_encoding.md R76). -/
inductive ErrKind where
  | invalidBlockSize
  | invalidKeyLength
  | invalidTweakLength
  | invalidInputLength
  | invalidPadding
  | noContext
  | capacityExceeded
  | illegalCommand
  | invalidPaddingMode
  deriving DecidableEq, Repr

/-- What raises an error, as far as 60_exceptions.md R203 tells the cases apart. -/
inductive RaisedBy where
  /-- CONFIGURE: only `STATUS.ERR` is written. -/
  | configure
  /-- ENCRYPT or DECRYPT: `OUTLEN` is cleared as well. -/
  | message
  /-- A `CMD` write of an illegal word: only `STATUS.ERR` is written. -/
  | illegalWord
  deriving DecidableEq, Repr

/-- The CipherContext (10_state.md R29). The third tweak word is not stored (R31). -/
structure Context where
  /-- `CTX.valid`: a context exists. -/
  valid : Bool
  /-- `CTX.bits`: the block size in bits, or 0. -/
  bits : Nat
  /-- `CTX.wc`: the word count, or 0. -/
  wc : Nat
  /-- `CTX.K[0..16]`: the key schedule; only `K[0..wc]` is meaningful. -/
  k : Vector Word 17
  /-- `CTX.T0`. -/
  t0 : Word
  /-- `CTX.T1`. -/
  t1 : Word
  /-- `CTX.pmode`. -/
  pmode : PadMode
  deriving DecidableEq, Repr

/-- What a host access asks for (20_memory.md R50). -/
inductive BusOp where
  | read
  | write (data : Word)
  deriving DecidableEq, Repr

/-- One host access: a 32-bit byte offset, a width in bits, and a read or a write (20_memory.md R50, R53). A write's data
is the 64-bit word; an access of another width is refused whatever its data. -/
structure Access where
  off : Offset
  width : Nat
  op : BusOp
  deriving DecidableEq, Repr

/-- What the host does next: an access, or driving the engine's reset input to a level (70_reset_and_hazards.md R220, log
entry 5). -/
inductive HostEvent where
  | access (a : Access)
  /-- The reset input from now on: asserted (`true`) or released (`false`). -/
  | resetInput (asserted : Bool)
  deriving DecidableEq, Repr

/-- The bytes of KEYBUF, TWBUF and DATA, by window offset (20_memory.md R51, R52): the (offset, byte) pairs that something
has written, offsets strictly rising. Log entry 6. -/
abbrev Memory := List Host.Cell

/-- The state: the engine's (10_state.md R20), the level of its reset input, then the model's own `params`, `draw`, `pending` and `replies`. -/
structure State where
  /-- Staging register `BSZ` (R23). -/
  bsz : Word
  /-- Staging register `PMODE` (R24). -/
  pmode : Word
  /-- Staging register `KEYLEN` (R25). -/
  keylen : Word
  /-- Staging register `TWLEN` (R26). -/
  twlen : Word
  /-- Message register `LEN` (R33). -/
  len : Word
  /-- Message register `OUTLEN` (R34). -/
  outlen : Word
  /-- `STATUS.ERR` (R32); `STATUS.CTXV` is `ctx.valid`. -/
  err : Byte
  /-- The context (R29). -/
  ctx : Context
  /-- `KEYBUF` (R27), `TWBUF` (R28) and `DATA` (R35). -/
  mem : Memory
  /-- The level of the engine's reset input: whether reset is asserted (70_reset_and_hazards.md R220). Log entry 5. -/
  resetAsserted : Bool
  /-- The model's own: `DATA_BYTES` and `ENGINE_BASE` (00_scope.md R8), which no step changes. Log entry 1. -/
  params : Config.Params
  /-- The model's own: which free draw `DATA` holds where nothing has written it. Log entry 2. -/
  draw : Nat
  /-- The model's own: the host events not performed yet, oldest first. Log entry 3. -/
  pending : List HostEvent
  /-- The model's own: the data that host reads have returned, oldest first. Log entry 3. -/
  replies : List Word
  deriving DecidableEq, Repr

/-- The ways a step stops. -/
inductive Fault where
  /-- BusError (20_memory.md R56): raised by a host access of a width other than 64 bits, at an offset that is no multiple
  of 8, in a reserved range, or beyond `DATA` (log entry 4). SAFE: the run ends where the platform might let the host go
  on (60_exceptions.md R215(b)). -/
  | busError
  deriving DecidableEq, Repr

/-- The instructions without a meaning. -/
inductive Refusal where
  /-- An arm of `exec` that has no meaning yet. No arm of this model raises it. SAFE: the step stops. -/
  | notModelled (mnemonic : String)
  deriving DecidableEq, Repr

/-- The context at reset: none exists, every field 0 (10_state.md R42). -/
def Context.reset : Context where
  valid := false
  bits := 0
  wc := 0
  k := Vector.replicate 17 0#64
  t0 := 0#64
  t1 := 0#64
  pmode := .noPadding

/-- The state right after reset, once the reset input is released (10_state.md R42, 70_reset_and_hazards.md R220), for any
parameters and any draw of `DATA`. -/
def State.resetWith (p : Config.Params) (draw : Nat) : State where
  bsz := 0#64
  pmode := 0#64
  keylen := 0#64
  twlen := 0#64
  len := 0#64
  outlen := 0#64
  err := 0#8
  ctx := Context.reset
  mem := []
  resetAsserted := false
  params := p
  draw := draw
  pending := []
  replies := []

/-- The state right after reset. The parameters and the number of the draw are the model's choice (log entries 1, 2); no
statement rests on them. -/
def State.reset : State := State.resetWith Config.exampleParams 0

end Sys2Proof.Machine
end

