-- ==== Sys2Proof/Machine/Flags.lean ====
section
/-! DEFINITION. The flags: the error codes of 30_encoding.md R76, the encoding of the padding mode (R74), and the STATUS
register as the host reads it (10_state.md R32, R41). -/

namespace Sys2Proof.Machine

/-- The code of an error kind (R76); 0 is OK. -/
def ErrKind.code : ErrKind → Byte
  | .invalidBlockSize => 1#8
  | .invalidKeyLength => 2#8
  | .invalidTweakLength => 3#8
  | .invalidInputLength => 4#8
  | .invalidPadding => 5#8
  | .noContext => 6#8
  | .capacityExceeded => 7#8
  | .illegalCommand => 8#8
  | .invalidPaddingMode => 9#8

/-- The number of a padding mode (R74). -/
def PadMode.code : PadMode → Word
  | .noPadding => 0#64
  | .lengthTag => 1#64
  | .zeroPadding => 2#64

/-- The padding mode a `PMODE` value encodes; none for 3 .. 2^64-1 (R74). -/
def PadMode.ofWord (w : Word) : Option PadMode :=
  if w = 0#64 then some .noPadding
  else if w = 1#64 then some .lengthTag
  else if w = 2#64 then some .zeroPadding
  else none

/-- `STATUS` as it reads: `CTXV` in bit 0, `ERR` in bits [15:8], every other bit 0 (10_state.md R32). -/
def statusWord (s : State) : Word :=
  BitVec.ofNat 64 (256 * s.err.toNat + s.ctx.valid.toNat)

end Sys2Proof.Machine
end

