-- ==== Sys2Proof/Machine/Operands.lean ====
section
/-! DEFINITION. Rotations (00_scope.md R11) and the little-endian boundary between bytes and 64-bit words (R13,
40_schedules.md R100). -/

namespace Sys2Proof.Machine

/-- `rotl64(x, n)` for `0 <= n <= 63` (R11). -/
def rotl64 (x : Word) (n : Nat) : Word :=
  if n = 0 then x else (x <<< n) ||| (x >>> (64 - n))

/-- `rotr64(x, n) = rotl64(x, (64 - n) mod 64)` (R11). -/
def rotr64 (x : Word) (n : Nat) : Word := rotl64 x ((64 - n) % 64)

/-- Byte `i` of a byte sequence; a sequence is only ever read below its length. -/
def byteAt (b : List Byte) (i : Nat) : Byte := b.getD i 0#8

/-- `le64_get(b, o)`: the sum of `b[o + j] * 2^(8j)` over `j` in 0..7 (R13). -/
def le64Get (b : List Byte) (o : Nat) : Word :=
  BitVec.ofNat 64
    ((byteAt b o).toNat
      + (byteAt b (o + 1)).toNat * 2 ^ 8
      + (byteAt b (o + 2)).toNat * 2 ^ 16
      + (byteAt b (o + 3)).toNat * 2 ^ 24
      + (byteAt b (o + 4)).toNat * 2 ^ 32
      + (byteAt b (o + 5)).toNat * 2 ^ 40
      + (byteAt b (o + 6)).toNat * 2 ^ 48
      + (byteAt b (o + 7)).toNat * 2 ^ 56)

/-- `le64_put(w)`: the eight bytes of `w`, least significant first (R13). -/
def le64Put (w : Word) : List Byte :=
  [w.extractLsb' 0 8, w.extractLsb' 8 8, w.extractLsb' 16 8, w.extractLsb' 24 8,
   w.extractLsb' 32 8, w.extractLsb' 40 8, w.extractLsb' 48 8, w.extractLsb' 56 8]

/-- `words_of(b, n)`: word `j` is `le64_get(b, 8j)` (R13). -/
def wordsOf (b : List Byte) (n : Nat) : List Word :=
  (List.range n).map fun j => le64Get b (8 * j)

/-- `bytes_of(W)`: the words' bytes, one word after another (R13). -/
def bytesOf (ws : List Word) : List Byte := ws.flatMap le64Put

end Sys2Proof.Machine
end

