-- ==== Sys2Proof/Machine/Ops.lean ====
section
/-! DEFINITION. The operations over the memory of the buffers and over the registers, and the one way a command ends in an
error (60_exceptions.md R203). There is no operation of return from an error: nothing has to be undone (R205). -/

namespace Sys2Proof.Machine

/-- Window offset of `KEYBUF` (20_memory.md R51). -/
abbrev keybufBase : Nat := 0x100

/-- Window offset of `TWBUF` (R51). -/
abbrev twbufBase : Nat := 0x180

/-- Window offset of `DATA` (R51). -/
abbrev dataBase : Nat := 0x1000

/-! ### Memory -/

/-- The known value of a byte that nothing has written: `KEYBUF` and `TWBUF` hold 0x00 at reset, `DATA` no known value
(10_state.md R42). -/
def Memory.known (a : Nat) : Option Byte := if a < dataBase then some 0#8 else none

/-- What an unlisted offset reads as: its known value, or its byte of the free draw (R42; log entry 2). -/
def Memory.unlisted (draw a : Nat) : Byte :=
  match Memory.known a with
  | some b => b
  | none => Config.dataAtReset draw (a - dataBase)

/-- The listed byte at an offset. -/
def Memory.find (m : Memory) (a : Nat) : Option Byte :=
  match m with
  | [] => none
  | (a', b) :: rest => if a = a' then some b else Memory.find rest a

/-- Lists `b` at `a`, in the place that keeps offsets rising. -/
def Memory.insertCell (m : Memory) (a : Nat) (b : Byte) : Memory :=
  match m with
  | [] => [(a, b)]
  | (a', b') :: rest =>
    if a < a' then (a, b) :: (a', b') :: rest
    else if a = a' then (a, b) :: rest
    else (a', b') :: Memory.insertCell rest a b

/-- Unlists `a`. -/
def Memory.removeCell (m : Memory) (a : Nat) : Memory :=
  match m with
  | [] => []
  | (a', b') :: rest => if a = a' then Memory.removeCell rest a else (a', b') :: Memory.removeCell rest a

/-- Writes one byte and keeps the canonical form: a known unlisted value is not listed. -/
def Memory.write (m : Memory) (a : Nat) (b : Byte) : Memory :=
  if Memory.known a = some b then m.removeCell a else m.insertCell a b

/-- Writes consecutive bytes from `a` up. -/
def Memory.writeAll (m : Memory) (a : Nat) (bs : List Byte) : Memory :=
  match bs with
  | [] => m
  | b :: rest => Memory.writeAll (m.write a b) (a + 1) rest

/-- Every listed offset is above `a`. -/
def Memory.above (m : Memory) (a : Nat) : Bool := m.all fun c => decide (a < c.1)

/-- The canonical form: offsets strictly rising, no entry equal to its known unlisted value. -/
def Memory.wf (m : Memory) : Bool :=
  match m with
  | [] => true
  | (a, b) :: rest => Memory.above rest a && (Memory.known a != some b) && Memory.wf rest

/-- An offset of a byte of `KEYBUF`, `TWBUF` or `DATA` (R51). -/
def isBufferByte (cap a : Nat) : Bool :=
  (decide (keybufBase ≤ a) && decide (a < keybufBase + 128))
    || (decide (twbufBase ≤ a) && decide (a < twbufBase + 16))
    || (decide (dataBase ≤ a) && decide (a < dataBase + cap))

/-- Every listed offset is that of a buffer byte. -/
def Memory.inBuffers (cap : Nat) (m : Memory) : Bool := m.all fun c => isBufferByte cap c.1

/-! ### Reading and writing the buffers -/

/-- The capacity of `DATA` in bytes (00_scope.md R8). -/
def State.dataBytes (s : State) : Nat := s.params.dataBytes

/-- The byte at a window offset. -/
def State.readByte (s : State) (a : Nat) : Byte :=
  match s.mem.find a with
  | some b => b
  | none => Memory.unlisted s.draw a

/-- `n` consecutive bytes from offset `a`. -/
def State.readBytes (s : State) (a n : Nat) : List Byte :=
  (List.range n).map fun i => s.readByte (a + i)

/-- Writes consecutive bytes from offset `a`. -/
def State.writeBytes (s : State) (a : Nat) (bs : List Byte) : State :=
  { s with mem := s.mem.writeAll a bs }

/-- The 64-bit word at an offset, little-endian (20_memory.md R54). -/
def State.readWord (s : State) (a : Nat) : Word := le64Get (s.readBytes a 8) 0

/-- Stores a 64-bit word at an offset, little-endian (R54). -/
def State.writeWord (s : State) (a : Nat) (w : Word) : State := s.writeBytes a (le64Put w)

/-- `KEYBUF[0..n)`. -/
def State.keyBytes (s : State) (n : Nat) : List Byte := s.readBytes keybufBase n

/-- `TWBUF[0..16)`. -/
def State.tweakBytes (s : State) : List Byte := s.readBytes twbufBase 16

/-- `DATA[0..n)`. -/
def State.dataPrefix (s : State) (n : Nat) : List Byte := s.readBytes dataBase n

/-! ### Registers -/

/-- Writes `STATUS.ERR`. -/
def State.setErr (s : State) (e : Byte) : State := { s with err := e }

/-- Writes `OUTLEN`. -/
def State.setOutlen (s : State) (n : Nat) : State := { s with outlen := BitVec.ofNat 64 n }

/-- Replaces the whole context (43_commands.md R166). -/
def State.setCtx (s : State) (c : Context) : State := { s with ctx := c }

/-- A command that succeeds writes `STATUS.ERR <- 0` (R161). -/
def State.succeed (s : State) : State := s.setErr 0#8

/-- A command ends in an error (60_exceptions.md R203, 43_commands.md R162): `STATUS.ERR` takes the code, ENCRYPT and
DECRYPT clear `OUTLEN`, nothing else changes. -/
def State.raise (s : State) (who : RaisedBy) (k : ErrKind) : State :=
  match who with
  | .configure => s.setErr k.code
  | .message => (s.setOutlen 0).setErr k.code
  | .illegalWord => s.setErr k.code

/-! ### The host port -/

/-- The port takes the oldest pending event; `rest` are the others. -/
def State.setPending (s : State) (rest : List HostEvent) : State := { s with pending := rest }

/-- A read returns its data to the host. -/
def State.reply (s : State) (w : Word) : State := { s with replies := s.replies ++ [w] }

/-! ### The reset input -/

/-- Every piece of the engine's state takes its reset value, and `DATA` a fresh free draw (10_state.md R42). The level of
the reset input, the parameters and the host's own record stay. Log entry 2. -/
def State.takeReset (s : State) : State :=
  { State.resetWith s.params (s.draw + 1) with
      resetAsserted := s.resetAsserted, pending := s.pending, replies := s.replies }

/-- The reset input is driven to a level (70_reset_and_hazards.md R220): when it is asserted, and when it is released, the
state takes its reset values; driving it low while it is low changes nothing. -/
def State.driveReset (s : State) (asserted : Bool) : State :=
  if s.resetAsserted || asserted then { s.takeReset with resetAsserted := asserted } else s

/-- What R220 makes of the state after an event: while reset is asserted every piece of it takes its reset value, whatever
the event wrote. Log entry 5. -/
def State.holdReset (s : State) : State := if s.resetAsserted then s.takeReset else s

/-- The engine's state is the one at reset: every register, the context and the buffers hold the values of R42. -/
abbrev State.AtReset (s : State) : Prop :=
  s = { State.resetWith s.params s.draw with
          resetAsserted := s.resetAsserted, pending := s.pending, replies := s.replies }

end Sys2Proof.Machine
end

