-- ==== Sys2Proof/Machine/Schedules.lean ====
section
/-! DEFINITION. The key schedule and the tweak schedule (40_schedules.md), used by CONFIGURE. -/

namespace Sys2Proof.Machine

/-- The parity constant `C240` (00_scope.md R7, 40_schedules.md R110). -/
def c240 : Word := 0x1BD11BDAA9FC1A22#64

/-- The parity word: the constant XOR every raw key word (R101, R102). -/
def parityWord (ks : List Word) : Word := ks.foldl (fun p k => p ^^^ k) c240

/-- `KeySchedule(keyBytes, wc)`: the raw words in order, the parity word last (R101). -/
def keySchedule (keyBytes : List Byte) (wc : Nat) : Except ErrKind (List Word) :=
  if keyBytes.length ≠ wc * 8 then .error .invalidKeyLength
  else .ok (wordsOf keyBytes wc ++ [parityWord (wordsOf keyBytes wc)])

/-- `TweakSchedule(tweakBytes)` without `t2`, which is computed wherever it is read (R106, R107, 10_state.md R31). -/
def tweakSchedule (tweakBytes : List Byte) : Except ErrKind (Word × Word) :=
  if tweakBytes.length ≠ 16 then .error .invalidTweakLength
  else .ok (le64Get tweakBytes 0, le64Get tweakBytes 8)

/-- The 17 slots of `CTX.K` from a schedule: the slots beyond it hold 0 (43_commands.md R165, 10_state.md R30). -/
def keySlots (ks : List Word) : Vector Word 17 := Vector.ofFn fun i => ks.getD i.val 0#64

/-- `CTX.K[j]`; no rule reads a slot above 16. -/
def Context.keyWord (c : Context) (j : Nat) : Word := c.k.toList.getD j 0#64

/-- The derived third tweak word (10_state.md R31). -/
def Context.t2 (c : Context) : Word := c.t0 ^^^ c.t1

/-- Tweak word `j` of `T = (T0, T1, T0 XOR T1)`, for `j` in 0..2. -/
def Context.tweakWord (c : Context) (j : Nat) : Word :=
  if j = 0 then c.t0 else if j = 1 then c.t1 else c.t2

end Sys2Proof.Machine
end

