-- ==== Sys2Proof/Machine/Configure.lean ====
section
/-! DEFINITION. CONFIGURE (43_commands.md R163, R165, R166). -/

namespace Sys2Proof.Machine

/-- `BSZ` holds one of 256, 512 and 1024 (R163). -/
def isBlockBits (bits : Nat) : Bool := bits == 256 || bits == 512 || bits == 1024

/-- The context CONFIGURE builds from the staging registers, or the first error its checks find, in the order of R163. -/
def configureResult (s : State) : Except ErrKind Context :=
  if isBlockBits s.bsz.toNat = false then .error .invalidBlockSize
  else if s.keylen.toNat ≠ s.bsz.toNat / 8 then .error .invalidKeyLength
  else if s.twlen.toNat ≠ 16 then .error .invalidTweakLength
  else
    match PadMode.ofWord s.pmode with
    | none => .error .invalidPaddingMode
    | some mode =>
      match keySchedule (s.keyBytes (s.bsz.toNat / 8)) (s.bsz.toNat / 8 / 8) with
      | .error e => .error e
      | .ok ks =>
        match tweakSchedule s.tweakBytes with
        | .error e => .error e
        | .ok ts =>
          .ok { valid := true, bits := s.bsz.toNat, wc := s.bsz.toNat / 8 / 8,
                k := keySlots ks, t0 := ts.1, t1 := ts.2, pmode := mode }

/-- CONFIGURE: the new context whole and `ERR <- 0`, or only `ERR <- code` (R165, R166, R162(c)). -/
def execConfigure (s : State) : Host.Outcome State Fault Refusal :=
  match configureResult s with
  | .error e => .next (s.raise .configure e)
  | .ok c => .next (s.setCtx c).succeed

end Sys2Proof.Machine
end

