-- ==== Sys2Proof/Machine/BlockTransform.lean ====
section
/-! DEFINITION. The block transform ENC_BLOCK and its inverse DEC_BLOCK (41_block_transform.md). It is not canonical
Threefish (00_scope.md R2). -/

namespace Sys2Proof.Machine

/-- The round-count constant (00_scope.md R7). -/
def roundCount : Nat := 72

/-- Steps per block: 72 / 4 = 18 (R120). -/
def stepCount : Nat := roundCount / 4

/-- The round tag `r(s) = 4s` (R120). -/
def roundTag (s : Nat) : Nat := 4 * s

/-- The tweak word step `s` selects, `r(s) mod 3` (R121). -/
def tweakSel (s : Nat) : Nat := roundTag s % 3

/-- The rotation amount of step `s`, `T[r(s) mod 3] mod 64` (R122). -/
def Context.amt (c : Context) (s : Nat) : Nat := (c.tweakWord (tweakSel s)).toNat % 64

/-- The key index of lane `i`, `i mod (wc + 1)` (40_schedules.md R104). -/
def Context.keyIndex (c : Context) (i : Nat) : Nat := i % (c.wc + 1)

/-- The key word of lane `i`. -/
def Context.laneKey (c : Context) (i : Nat) : Word := c.keyWord (c.keyIndex i)

/-- The forward update of one lane: XOR with its key word, then rotate left by `n` (R123, R128). -/
def encLane (c : Context) (n i : Nat) (w : Word) : Word := rotl64 (w ^^^ c.laneKey i) n

/-- The inverse update of one lane: rotate right by `n`, then XOR (R125). -/
def decLane (c : Context) (n i : Nat) (w : Word) : Word := rotr64 w n ^^^ c.laneKey i

/-- Applies an update to every lane, the first of them being lane `i`. -/
def mapLanes (f : Nat → Word → Word) (i : Nat) (ws : List Word) : List Word :=
  match ws with
  | [] => []
  | w :: rest => f i w :: mapLanes f (i + 1) rest

/-- `EncStep(W, s)` (R123). -/
def encStep (c : Context) (ws : List Word) (s : Nat) : List Word := mapLanes (encLane c (c.amt s)) 0 ws

/-- `DecStep(W, s)` (R125). -/
def decStep (c : Context) (ws : List Word) (s : Nat) : List Word := mapLanes (decLane c (c.amt s)) 0 ws

/-- `ENC_BLOCK(W)`: the steps 0..17 in order (R124). -/
def encBlock (c : Context) (ws : List Word) : List Word := (List.range stepCount).foldl (encStep c) ws

/-- `DEC_BLOCK(W)`: the steps 17 down to 0 (R126). -/
def decBlock (c : Context) (ws : List Word) : List Word := (List.range stepCount).reverse.foldl (decStep c) ws

/-- `ENC_BLOCK_BYTES(blk)` (R129). -/
def encBlockBytes (c : Context) (blk : List Byte) : List Byte := bytesOf (encBlock c (wordsOf blk c.wc))

/-- `DEC_BLOCK_BYTES(blk)` (R129). -/
def decBlockBytes (c : Context) (blk : List Byte) : List Byte := bytesOf (decBlock c (wordsOf blk c.wc))

/-- Applies a byte form to each of the first `n` blocks of `size` bytes; blocks do not depend on each other (R134). -/
def mapBlocks (f : List Byte → List Byte) (size n : Nat) (x : List Byte) : List Byte :=
  match n with
  | 0 => []
  | n + 1 => f (x.take size) ++ mapBlocks f size n (x.drop size)

/-- Encrypts a framed message of whole blocks of `size` bytes (43_commands.md R170). -/
def encBlocks (c : Context) (size : Nat) (x : List Byte) : List Byte :=
  mapBlocks (encBlockBytes c) size (x.length / size) x

/-- Decrypts a ciphertext of whole blocks of `size` bytes (43_commands.md R180). -/
def decBlocks (c : Context) (size : Nat) (x : List Byte) : List Byte :=
  mapBlocks (decBlockBytes c) size (x.length / size) x

end Sys2Proof.Machine
end

