-- ==== Sys2Proof/Machine/Padding.lean ====
section
/-! DEFINITION. The padding codec (42_padding.md): pure functions of bytes and the block size in bytes (R141). -/

namespace Sys2Proof.Machine

/-- `padLen(L, B) = (B - (L mod B)) mod B` (R140). -/
def padLen (l b : Nat) : Nat := (b - l % b) % b

/-- `NONE_PAD(m)` (R142). -/
def nonePad (b : Nat) (m : List Byte) : Except ErrKind (List Byte) :=
  if m.length = b then .ok m else .error .invalidInputLength

/-- `NONE_UNPAD(x)` (R142). -/
def noneUnpad (b : Nat) (x : List Byte) : Except ErrKind (List Byte) :=
  if x.length = b then .ok x else .error .invalidInputLength

/-- `LT_PAD(m)`: `p = padLen(L, B)` bytes of value `p` (R143). -/
def ltPad (b : Nat) (m : List Byte) : List Byte :=
  m ++ List.replicate (padLen m.length b) (BitVec.ofNat 8 (padLen m.length b))

/-- `LT_UNPAD(x)`: the last byte is the number of bytes to drop (R144). -/
def ltUnpad (x : List Byte) : Except ErrKind (List Byte) :=
  if x.length = 0 then .ok x
  else if (byteAt x (x.length - 1)).toNat > x.length then .error .invalidPadding
  else .ok (x.take (x.length - (byteAt x (x.length - 1)).toNat))

/-- `ZP_PAD(m)`: `padLen(L, B)` bytes 0x00 (R146). -/
def zpPad (b : Nat) (m : List Byte) : List Byte := m ++ List.replicate (padLen m.length b) 0#8

/-- The loop of R147: the length that is left of the first `n` bytes once trailing 0x00 bytes are gone. -/
def stripZeros (x : List Byte) : Nat → Nat
  | 0 => 0
  | n + 1 => if byteAt x n = 0#8 then stripZeros x n else n + 1

/-- `ZP_UNPAD(x)` (R147). -/
def zpUnpad (x : List Byte) : List Byte := x.take (stripZeros x x.length)

/-- The framing of a message in a padding mode (43_commands.md R170, R171). -/
def frameMessage (mode : PadMode) (b : Nat) (m : List Byte) : Except ErrKind (List Byte) :=
  match mode with
  | .noPadding => nonePad b m
  | .lengthTag => .ok (ltPad b m)
  | .zeroPadding => .ok (zpPad b m)

/-- The message in a decrypted buffer, in a padding mode (43_commands.md R180). -/
def unframeMessage (mode : PadMode) (b : Nat) (x : List Byte) : Except ErrKind (List Byte) :=
  match mode with
  | .noPadding => noneUnpad b x
  | .lengthTag => ltUnpad x
  | .zeroPadding => .ok (zpUnpad x)

end Sys2Proof.Machine
end

