-- ==== Sys2Proof/Machine/Message.lean ====
section
/-! DEFINITION. ENCRYPT and DECRYPT (43_commands.md R164, R170 to R172, R180 to R182). -/

namespace Sys2Proof.Machine

/-- The block size in bytes of the active context, `B = CTX.bits / 8`. -/
def Context.blockBytes (c : Context) : Nat := c.bits / 8

/-- The two checks ENCRYPT and DECRYPT share, in the order of R164. -/
def messageError (s : State) : Option ErrKind :=
  if s.ctx.valid = false then some .noContext
  else if s.len.toNat > s.dataBytes then some .capacityExceeded
  else none

/-- The whole output of ENCRYPT, computed before anything is written (R162(a), R170), or its first error. -/
def encryptResult (s : State) : Except ErrKind (List Byte) :=
  match messageError s with
  | some e => .error e
  | none =>
    match frameMessage s.ctx.pmode s.ctx.blockBytes (s.dataPrefix s.len.toNat) with
    | .error e => .error e
    | .ok x => .ok (encBlocks s.ctx s.ctx.blockBytes x)

/-- ENCRYPT: commits `DATA[0..len(y))`, `OUTLEN` and `ERR <- 0`, or raises the error (R170, R162). -/
def execEncrypt (s : State) : Host.Outcome State Fault Refusal :=
  match encryptResult s with
  | .error e => .next (s.raise .message e)
  | .ok y => .next ((s.writeBytes dataBase y).setOutlen y.length).succeed

/-- DECRYPT's length rule (R181): exactly one block in mode None, whole blocks in the padded modes. -/
def decryptLengthOk (c : Context) (n : Nat) : Bool :=
  (c.pmode != .noPadding || n == c.blockBytes) && n % c.blockBytes == 0

/-- The decrypted bytes and the message in them, computed before anything is written (R162(a), R180), or the first
error. -/
def decryptResult (s : State) : Except ErrKind (List Byte × List Byte) :=
  match messageError s with
  | some e => .error e
  | none =>
    if decryptLengthOk s.ctx s.len.toNat = false then .error .invalidInputLength
    else
      match unframeMessage s.ctx.pmode s.ctx.blockBytes
          (decBlocks s.ctx s.ctx.blockBytes (s.dataPrefix s.len.toNat)) with
      | .error e => .error e
      | .ok z => .ok (decBlocks s.ctx s.ctx.blockBytes (s.dataPrefix s.len.toNat), z)

/-- DECRYPT: commits every decrypted byte, pad included, `OUTLEN <- len(z)` and `ERR <- 0`, or raises the error (R180,
R162). -/
def execDecrypt (s : State) : Host.Outcome State Fault Refusal :=
  match decryptResult s with
  | .error e => .next (s.raise .message e)
  | .ok (x, z) => .next ((s.writeBytes dataBase x).setOutlen z.length).succeed

end Sys2Proof.Machine
end

