-- ==== Sys2Proof/Machine/Bus.lean ====
section
/-! DEFINITION. The host port (20_memory.md): the register map, the access rights, BusError, and the command that a write
to `CMD` runs. -/

namespace Sys2Proof.Machine

/-- What stands at an offset of the window (R51). Buffer words carry the window offset of their first byte. -/
inductive Location where
  | cmd
  | status
  | bsz
  | pmode
  | keylen
  | twlen
  | len
  | outlen
  | ctxBsz
  | ctxPmode
  | ctxT0
  | ctxT1
  | ctxT2
  | keybuf (a : Nat)
  | twbuf (a : Nat)
  | data (a : Nat)
  /-- A reserved range of R51. -/
  | reserved
  /-- At or above `0x1000 + DATA_BYTES`. -/
  | outside
  deriving DecidableEq, Repr

/-- The rows of R51 for the registers, by offset. -/
def registerMap : List (Nat × Location) :=
  [(0x000, .cmd), (0x008, .status), (0x010, .bsz), (0x018, .pmode), (0x020, .keylen), (0x028, .twlen), (0x030, .len),
    (0x038, .outlen), (0x040, .ctxBsz), (0x048, .ctxPmode), (0x050, .ctxT0), (0x058, .ctxT1), (0x060, .ctxT2)]

/-- The row of an offset in a list of rows; an offset without a row is reserved. -/
def findRegister (rows : List (Nat × Location)) (off : Nat) : Location :=
  match rows with
  | [] => .reserved
  | (o, l) :: rest => if off = o then l else findRegister rest off

/-- The registers below 0x68 and the reserved range up to 0x100 (R51). -/
def registerAt (off : Nat) : Location := findRegister registerMap off

/-- The register map of R51 at an offset that is a multiple of 8, for a `DATA` of `cap` bytes. -/
def locate (cap off : Nat) : Location :=
  if off < keybufBase then registerAt off
  else if off < keybufBase + 128 then .keybuf off
  else if off < twbufBase + 16 then .twbuf off
  else if off < dataBase then .reserved
  else if off < dataBase + cap then .data off
  else .outside

/-- A register of the context's readback, 0 while no context exists (10_state.md R37). -/
def readback (c : Context) (w : Word) : Word := if c.valid then w else 0#64

/-- The data a read returns (R55); none where the engine refuses the access (R56). -/
def readLocation (s : State) (l : Location) : Option Word :=
  match l with
  | .cmd => some 0#64
  | .status => some (statusWord s)
  | .bsz => some s.bsz
  | .pmode => some s.pmode
  | .keylen => some s.keylen
  | .twlen => some s.twlen
  | .len => some s.len
  | .outlen => some s.outlen
  | .ctxBsz => some (readback s.ctx (BitVec.ofNat 64 s.ctx.bits))
  | .ctxPmode => some (readback s.ctx s.ctx.pmode.code)
  | .ctxT0 => some (readback s.ctx s.ctx.t0)
  | .ctxT1 => some (readback s.ctx s.ctx.t1)
  | .ctxT2 => some (readback s.ctx s.ctx.t2)
  | .keybuf _ => some 0#64
  | .twbuf a => some (s.readWord a)
  | .data a => some (s.readWord a)
  | .reserved => none
  | .outside => none

/-- A write of an illegal word to `CMD`: `ERR <- 8` and nothing else (43_commands.md R190). -/
def illegalWord (s : State) : Host.Outcome State Fault Refusal :=
  .next (s.raise .illegalWord .illegalCommand)

/-- A write of the word `c` to `CMD` runs the command it encodes to completion (43_commands.md R160). -/
def runWord (c : Word) (s : State) : Host.Outcome State Fault Refusal :=
  match decode c with
  | .command i => exec i s
  | .illegalCommand => illegalWord s

/-- The effect of a write (R55, R57). -/
def writeLocation (s : State) (l : Location) (v : Word) : Host.Outcome State Fault Refusal :=
  match l with
  | .cmd => runWord v s
  | .status => .next s
  | .bsz => .next { s with bsz := v }
  | .pmode => .next { s with pmode := v }
  | .keylen => .next { s with keylen := v }
  | .twlen => .next { s with twlen := v }
  | .len => .next { s with len := v }
  | .outlen => .next s
  | .ctxBsz => .next s
  | .ctxPmode => .next s
  | .ctxT0 => .next s
  | .ctxT1 => .next s
  | .ctxT2 => .next s
  | .keybuf a => .next (s.writeWord a v)
  | .twbuf a => .next (s.writeWord a v)
  | .data a => .next (s.writeWord a v)
  | .reserved => .fault .busError
  | .outside => .fault .busError

/-- A 64-bit access at a multiple of 8 (R53). -/
def Access.wellFormed (a : Access) : Bool := a.width == 64 && a.off.toNat % 8 == 0

/-- Performs one host access (R53, R55, R56). -/
def performAccess (s : State) (a : Access) : Host.Outcome State Fault Refusal :=
  if a.wellFormed = false then .fault .busError
  else
    match a.op with
    | .read =>
      match readLocation s (locate s.dataBytes a.off.toNat) with
      | some w => .next (s.reply w)
      | none => .fault .busError
    | .write v => writeLocation s (locate s.dataBytes a.off.toNat) v

/-- The outcome of an access, with the state held at its reset values while reset is asserted (70_reset_and_hazards.md
R220). -/
def holdOutcome (o : Host.Outcome State Fault Refusal) : Host.Outcome State Fault Refusal :=
  match o with
  | .next t => .next t.holdReset
  | .fault f => .fault f
  | .refused r => .refused r

/-- Performs one host event. -/
def performEvent (s : State) (e : HostEvent) : Host.Outcome State Fault Refusal :=
  match e with
  | .access a => holdOutcome (performAccess s a)
  | .resetInput asserted => .next (s.driveReset asserted)

/-- The port performs the oldest pending event; with none pending the engine is idle (R60, 70_reset_and_hazards.md
R221). -/
def serveHost (s : State) : Host.Outcome State Fault Refusal :=
  match s.pending with
  | [] => .next s
  | e :: rest => performEvent (s.setPending rest) e

/-- The 64-bit host write of `v` at offset `off`, `W64 off, v` of 30_encoding.md R79. -/
def w64 (off : Nat) (v : Word) : HostEvent := .access ⟨BitVec.ofNat 32 off, 64, .write v⟩

/-- The 64-bit host read at offset `off`, `R64 off` of R79. -/
def r64 (off : Nat) : HostEvent := .access ⟨BitVec.ofNat 32 off, 64, .read⟩

/-- The state in which the host's next access is a write of the word `c` to `CMD`. -/
def State.withCommandWrite (s : State) (c : Word) : State := s.setPending (w64 0x000 c :: s.pending)

/-- The access the engine's port receives from a host access at `addr` of the host's address map; none where the address
is not in the window (00_scope.md R8, 20_memory.md R50, R56). -/
def routeAddress (p : Config.Params) (addr width : Nat) (op : BusOp) : Option Access :=
  if p.engineBase ≤ addr ∧ addr < p.engineBase + dataBase + p.dataBytes then
    some ⟨BitVec.ofNat 32 (addr - p.engineBase), width, op⟩
  else none

end Sys2Proof.Machine
end

