-- ==== Sys2Proof/Machine/Step.lean ====
section
/-! DEFINITION. One step of the model: one host event (00_scope.md R17, 20_memory.md R60). -/

namespace Sys2Proof.Machine

/-- One step: the port performs the host's oldest pending event. -/
def step (s : State) : Host.Outcome State Fault Refusal := serveHost s

/-- The engine fetches nothing (20_memory.md R63); an instruction reaches it as the data of a `CMD` write. `s` with that
write as the host's next access, and with the reset input released, so that the command has its effect. Log entry 3. -/
def State.withFetchWord (s : State) (nbits w : Nat) : State :=
  { s.withCommandWrite (tableWord nbits w) with resetAsserted := false }

end Sys2Proof.Machine
end

