-- ==== Sys2Proof/Safety.lean ====
section
/-! DEFINITION. What counts as a safe step and a safe run (one that takes no fault and no refusal, 60_exceptions.md R215;
a command error is no fault), and the invariant of the engine's state (10_state.md R29, R30, R34, 30_encoding.md R76). -/

namespace Sys2Proof.Machine

/-- The step from `s` completes. -/
def StepSafe (s : State) : Prop := ∃ t, step s = .next t

/-- `k` steps from `s` complete. -/
def RunSafe (k : Nat) (s : State) : Prop := ∃ t, Sys2Proof.core.run k s = .next t

/-- The offset of an access names a location of R51 that is neither reserved nor beyond `DATA`. -/
abbrev Mapped (cap off : Nat) : Prop := locate cap off ≠ .reserved ∧ locate cap off ≠ .outside

/-- A host event the engine does not refuse (20_memory.md R53, R56). -/
def EventLegal (cap : Nat) : HostEvent → Prop
  | .access a => a.wellFormed = true ∧ Mapped cap a.off.toNat
  | .resetInput _ => True

/-- The context is one that CONFIGURE builds (10_state.md R29, R30), or the one at reset. -/
abbrev Context.Wf (c : Context) : Prop :=
  if c.valid = true then
    (c.bits = 256 ∨ c.bits = 512 ∨ c.bits = 1024)
      ∧ c.wc = c.bits / 64
      ∧ c.keyWord c.wc = parityWord ((List.range c.wc).map c.keyWord)
      ∧ ∀ j, j < 17 → c.wc < j → c.keyWord j = 0#64
  else c = Context.reset

/-- The invariant: a well-formed context, a memory in canonical form that lists buffer bytes only, an output length within
`DATA` (R34), an error code of R76, and reset values while reset is asserted (70_reset_and_hazards.md R220). -/
abbrev State.Inv (s : State) : Prop :=
  s.ctx.Wf
    ∧ s.mem.wf = true
    ∧ s.mem.inBuffers s.dataBytes = true
    ∧ s.outlen.toNat ≤ s.dataBytes
    ∧ s.err.toNat ≤ 9
    ∧ (s.resetAsserted = true → s.AtReset)

end Sys2Proof.Machine
end

