-- ==== Sys2Proof/Certificates/Slice0/Obligations.lean ====
section
/-! DEFINITION. The statements about the model: what the numbered rules of the spec say a command, an access, an error,
the transform, the padding codec and the reset do. -/

open Sys2Proof Sys2Proof.Machine

/-! ### Decoding (30_encoding.md) -/

/-- R81: which words decode to which command, and that every other word is illegal. -/
def Obligations.DecodeSelectsExactWords : Prop :=
  ∀ c : Word,
    (decode c = .command .configure ↔ c = 0x0000000000000001#64)
      ∧ (decode c = .command .encrypt ↔ c = 0x0000000000000002#64)
      ∧ (decode c = .command .decrypt ↔ c = 0x0000000000000003#64)
      ∧ (decode c = .illegalCommand ↔
          c ≠ 0x0000000000000001#64 ∧ c ≠ 0x0000000000000002#64 ∧ c ≠ 0x0000000000000003#64)

/-- Decoding the encoded word of a command gives the command, and only that word does. -/
def Obligations.DecodeEncodeRoundTrip : Prop :=
  ∀ i : Instr, i.wellFormed = true →
    decode (encode i) = .command i ∧ ∀ c : Word, decode c = .command i → c = encode i

/-- The three words of the opcode table and three of the illegal words R190 and R72 name, written out. -/
def Obligations.DecodeSpecWords : Prop :=
  decode 0x0000000000000001#64 = .command .configure
    ∧ decode 0x0000000000000002#64 = .command .encrypt
    ∧ decode 0x0000000000000003#64 = .command .decrypt
    ∧ decode 0x0000000000000000#64 = .illegalCommand
    ∧ decode 0x0000000000000101#64 = .illegalCommand
    ∧ decode 0x8000000000000001#64 = .illegalCommand

/-! ### The host port (20_memory.md) -/

/-- A `CMD` write of a word that decodes to a command runs that command; the step adds nothing but that the access is no
longer pending (the pending list is the model's own field, log entry 3). While reset is asserted the command has no effect
that survives (70_reset_and_hazards.md R220): the step leaves the reset values. That the write completes then, and that
`DATA` is drawn afresh, is the model's choice (log entry 5). -/
def Obligations.StepRunsDecodedCommand : Prop :=
  ∀ (s : State) (rest : List HostEvent) (c : Word) (i : Instr),
    s.pending = w64 0x000 c :: rest → decode c = .command i →
      (s.resetAsserted = false → step s = exec i (s.setPending rest))
        ∧ (s.resetAsserted = true →
            step s = .next { State.resetWith s.params (s.draw + 1) with
              resetAsserted := true, pending := rest, replies := s.replies })

/-- R190: a `CMD` write of an illegal word completes, writes `ERR <- 8` and changes nothing else; 0 and 0x101 are illegal.
The rule's example: after the illegal word 4, with a context, STATUS reads 0x0801. (While reset is asserted every write
leaves the reset values: AccessesUnderResetHaveNoEffect.) -/
def Obligations.IllegalWordOnlyWritesErr : Prop :=
  (∀ (s : State) (rest : List HostEvent) (c : Word),
      s.resetAsserted = false → s.pending = w64 0x000 c :: rest → decode c = .illegalCommand →
        step s = .next { s with pending := rest, err := 8#8 })
    ∧ (∀ c : Word, c ≠ 1#64 → c ≠ 2#64 → c ≠ 3#64 → decode c = .illegalCommand)
    ∧ decode 0x0000000000000000#64 = .illegalCommand
    ∧ decode 0x0000000000000101#64 = .illegalCommand
    ∧ ∀ (s : State) (rest : List HostEvent),
        s.resetAsserted = false → s.ctx.valid = true → s.pending = w64 0x000 0x04#64 :: rest →
        ∃ t, step s = .next t ∧ statusWord t = 0x0801#64

/-- R53: an access of another width, or at an offset that is no multiple of 8, is a BusError. -/
def Obligations.MalformedAccessIsBusError : Prop :=
  ∀ (s : State) (rest : List HostEvent) (a : Access),
    s.pending = .access a :: rest → (a.width ≠ 64 ∨ a.off.toNat % 8 ≠ 0) → step s = .fault .busError

/-- An access in a reserved range of R51, or beyond `DATA`, is a BusError (for the latter see log entry 4). -/
def Obligations.ReservedOffsetIsBusError : Prop :=
  ∀ (s : State) (rest : List HostEvent) (a : Access),
    s.pending = .access a :: rest →
      ((0x068 ≤ a.off.toNat ∧ a.off.toNat < 0x100) ∨ (0x190 ≤ a.off.toNat ∧ a.off.toNat < 0x1000)
        ∨ 0x1000 + s.dataBytes ≤ a.off.toNat) →
      step s = .fault .busError

/-- A step faults exactly on an illegal host event, and otherwise completes: no word is refused and nothing is stuck. Three
clauses are the model's own, no rule of the spec: that an engine without a pending event idles (log entry 3), that an access
beyond `DATA` faults (log entry 4), and that while reset is asserted a legal access completes and another faults (log entry
5, a DESIGN CHOICE: the spec does not say whether an access completes then). -/
def Obligations.StepCompletesUnlessBusError : Prop :=
  ∀ s : State,
    (s.pending = [] → step s = .next s)
      ∧ ∀ (e : HostEvent) (rest : List HostEvent), s.pending = e :: rest →
          (EventLegal s.dataBytes e → StepSafe s) ∧ (¬ EventLegal s.dataBytes e → step s = .fault .busError)

/-- Reads of the registers of R51 return their values and change nothing but the reply to the host (for the time reset is
asserted see AccessesUnderResetHaveNoEffect). -/
def Obligations.RegisterReadsReturnValues : Prop :=
  ∀ (s : State) (rest : List HostEvent) (off : Nat) (w : Word),
    (off, w) ∈
      [(0x000, 0#64), (0x008, statusWord s), (0x010, s.bsz), (0x018, s.pmode), (0x020, s.keylen), (0x028, s.twlen),
        (0x030, s.len), (0x038, s.outlen),
        (0x040, if s.ctx.valid then BitVec.ofNat 64 s.ctx.bits else 0#64),
        (0x048, if s.ctx.valid then s.ctx.pmode.code else 0#64),
        (0x050, if s.ctx.valid then s.ctx.t0 else 0#64),
        (0x058, if s.ctx.valid then s.ctx.t1 else 0#64),
        (0x060, if s.ctx.valid then s.ctx.t0 ^^^ s.ctx.t1 else 0#64)] →
    s.resetAsserted = false → s.pending = r64 off :: rest →
      step s = .next { s with pending := rest, replies := s.replies ++ [w] }

/-- Writes of the read-write registers of R51 store all 64 bits; writes of the read-only registers are ignored (for the
time reset is asserted see AccessesUnderResetHaveNoEffect). -/
def Obligations.RegisterWritesStoreOrAreIgnored : Prop :=
  ∀ (s : State) (rest : List HostEvent) (v : Word), s.resetAsserted = false →
    (s.pending = w64 0x010 v :: rest → step s = .next { s with pending := rest, bsz := v })
      ∧ (s.pending = w64 0x018 v :: rest → step s = .next { s with pending := rest, pmode := v })
      ∧ (s.pending = w64 0x020 v :: rest → step s = .next { s with pending := rest, keylen := v })
      ∧ (s.pending = w64 0x028 v :: rest → step s = .next { s with pending := rest, twlen := v })
      ∧ (s.pending = w64 0x030 v :: rest → step s = .next { s with pending := rest, len := v })
      ∧ (∀ off : Nat, off ∈ [0x008, 0x038, 0x040, 0x048, 0x050, 0x058, 0x060] →
          s.pending = w64 off v :: rest → step s = .next { s with pending := rest })

/-- R54: the byte lanes of the buffer words. A write stores byte `m` of the word at offset `off + m`, where the engine
then decodes the same word, and changes no other byte and nothing else; a read of `TWBUF` or `DATA` returns the word of
those bytes, a read of `KEYBUF` returns 0. (For the time reset is asserted see AccessesUnderResetHaveNoEffect.) -/
def Obligations.BufferWordsAreLittleEndian : Prop :=
  ∀ (s : State) (rest : List HostEvent) (off : Nat), s.resetAsserted = false → off % 8 = 0 →
    ((0x100 ≤ off ∧ off < 0x180) ∨ (0x180 ≤ off ∧ off < 0x190) ∨ (0x1000 ≤ off ∧ off < 0x1000 + s.dataBytes)) →
    (∀ v : Word, s.pending = w64 off v :: rest →
        ∃ t, step s = .next t
          ∧ t = { s with pending := rest, mem := t.mem }
          ∧ (∀ m, m < 8 → t.readByte (off + m) = v.extractLsb' (8 * m) 8)
          ∧ le64Get (t.readBytes off 8) 0 = v
          ∧ ∀ x, (x < off ∨ off + 8 ≤ x) → t.readByte x = s.readByte x)
      ∧ (s.pending = r64 off :: rest →
        ∃ w : Word, step s = .next { s with pending := rest, replies := s.replies ++ [w] }
          ∧ (off < 0x180 → w = 0#64)
          ∧ (0x180 ≤ off → w = le64Get (s.readBytes off 8) 0)
          ∧ (0x180 ≤ off → ∀ m, m < 8 → w.extractLsb' (8 * m) 8 = s.readByte (off + m)))

/-- An access other than a `CMD` write is idempotent: repeating it completes and leaves the same engine state. A read has no
side effect: it leaves everything but the reply to the host. -/
def Obligations.OtherAccessesAreIdempotent : Prop :=
  ∀ (s t : State) (a : Access), s.mem.wf = true → (a.off = 0#32 → a.op = .read) →
    performAccess s a = .next t →
      (∃ u, performAccess t a = .next u ∧ { u with replies := t.replies } = t)
        ∧ (a.op = .read → t = { s with replies := t.replies })

/-- R38: no host read tells apart two states that differ only in the key schedule and in `KEYBUF`, and `KEYBUF` reads 0. -/
def Obligations.KeyIsNotReadable : Prop :=
  (∀ (s : State) (off : Nat), off % 8 = 0 → 0x100 ≤ off → off < 0x180 →
      performAccess s ⟨BitVec.ofNat 32 off, 64, .read⟩ = .next { s with replies := s.replies ++ [0#64] })
    ∧ ∀ (s t : State) (k : Vector Word 17) (a : Access),
    t = { s with ctx := { s.ctx with k := k }, mem := t.mem } →
    (∀ x, (x < 0x100 ∨ 0x180 ≤ x) → t.readByte x = s.readByte x) →
    a.op = .read →
      (∀ s', performAccess s a = .next s' →
          ∃ w, s' = { s with replies := s.replies ++ [w] }
            ∧ performAccess t a = .next { t with replies := t.replies ++ [w] })
        ∧ (performAccess s a = .fault .busError → performAccess t a = .fault .busError)

/-- STATUS reads `CTXV` in bit 0, `ERR` in bits [15:8] and 0 elsewhere. -/
def Obligations.StatusFields : Prop :=
  ∀ s : State,
    (statusWord s).extractLsb' 0 1 = BitVec.ofBool s.ctx.valid
      ∧ (statusWord s).extractLsb' 1 7 = 0#7
      ∧ (statusWord s).extractLsb' 8 8 = s.err
      ∧ (statusWord s).extractLsb' 16 48 = 0#48

/-- A host access inside the window `[ENGINE_BASE, ENGINE_BASE + 0x1000 + DATA_BYTES)` reaches the port at its offset from
`ENGINE_BASE`; another is no access to the engine. -/
def Obligations.WindowRoutesToOffsets : Prop :=
  ∀ (p : Config.Params) (addr width : Nat) (op : BusOp),
    (∀ off : Nat, off < 0x1000 + p.dataBytes → addr = p.engineBase + off →
        ∃ a, routeAddress p addr width op = some a ∧ a.off.toNat = off ∧ a.width = width ∧ a.op = op)
      ∧ ((addr < p.engineBase ∨ p.engineBase + 0x1000 + p.dataBytes ≤ addr) → routeAddress p addr width op = none)

/-! ### Reset (10_state.md R42, 70_reset_and_hazards.md R220) -/

/-- R42: the reset value of every piece of state that has one, for every parameter value and every draw of `DATA`; of the
bytes of `DATA`, unspecified at reset, it says nothing. -/
def Obligations.ResetValues : Prop :=
  ∀ (p : Config.Params) (d : Nat),
    (State.resetWith p d).bsz = 0#64 ∧ (State.resetWith p d).pmode = 0#64
      ∧ (State.resetWith p d).keylen = 0#64 ∧ (State.resetWith p d).twlen = 0#64
      ∧ (State.resetWith p d).len = 0#64 ∧ (State.resetWith p d).outlen = 0#64
      ∧ statusWord (State.resetWith p d) = 0#64
      ∧ (State.resetWith p d).ctx.valid = false ∧ (State.resetWith p d).ctx.bits = 0
      ∧ (State.resetWith p d).ctx.wc = 0 ∧ (State.resetWith p d).ctx.pmode.code = 0#64
      ∧ (∀ j, (State.resetWith p d).ctx.keyWord j = 0#64)
      ∧ (State.resetWith p d).ctx.t0 = 0#64 ∧ (State.resetWith p d).ctx.t1 = 0#64
      ∧ (∀ i, i < 128 → (State.resetWith p d).readByte (0x100 + i) = 0#8)
      ∧ (∀ i, i < 16 → (State.resetWith p d).readByte (0x180 + i) = 0#8)

/-- R220: when the reset input is asserted, and when it is released, every piece of the engine's state takes its value of
R42, `DATA` a fresh draw (the model's choice of how to say "unspecified", log entries 2 and 5); the host's own record stays.
Driving the input low while it is low changes nothing. -/
def Obligations.ResetInputForcesResetState : Prop :=
  ∀ (s : State) (rest : List HostEvent),
    (s.pending = .resetInput true :: rest →
        step s = .next { State.resetWith s.params (s.draw + 1) with
          resetAsserted := true, pending := rest, replies := s.replies })
      ∧ (s.resetAsserted = true → s.pending = .resetInput false :: rest →
          step s = .next { State.resetWith s.params (s.draw + 1) with pending := rest, replies := s.replies })
      ∧ (s.resetAsserted = false → s.pending = .resetInput false :: rest →
          step s = .next { s with pending := rest })

/-- A reset, asserted and then released, gives the engine its reset state, every byte of `DATA` reading as the free draw
(the draws are the model's own, log entries 2 and 5), and leaves the host's own record. -/
def Obligations.ResetPulseResetsEngine : Prop :=
  ∀ (s : State) (rest : List HostEvent), s.pending = .resetInput true :: .resetInput false :: rest →
    ∃ t u, step s = .next t ∧ t.resetAsserted = true ∧ t.AtReset ∧ step t = .next u
      ∧ u = { State.resetWith s.params (s.draw + 2) with pending := rest, replies := s.replies }
      ∧ ∀ i, u.readByte (0x1000 + i) = Config.dataAtReset (s.draw + 2) i

/-- While reset is asserted an access that is no BusError completes, and no write has an effect: the engine holds the values
of R42 after it. A read gives what stands at reset: 0 from every register, from `KEYBUF` and from `TWBUF`, the free draw
from `DATA`. (That an access completes at all then, and that each leaves `DATA` a fresh draw, is the model's choice, log
entry 5.) The premise `AtReset` is part of the invariant. -/
def Obligations.AccessesUnderResetHaveNoEffect : Prop :=
  ∀ (s : State) (rest : List HostEvent) (a : Access),
    s.resetAsserted = true → s.AtReset → s.pending = .access a :: rest →
    a.wellFormed = true → Mapped s.dataBytes a.off.toNat →
    (∀ v, a.op = .write v →
        step s = .next { State.resetWith s.params (s.draw + 1) with
          resetAsserted := true, pending := rest, replies := s.replies })
      ∧ (a.op = .read → ∃ w : Word,
          step s = .next { State.resetWith s.params (s.draw + 1) with
            resetAsserted := true, pending := rest, replies := s.replies ++ [w] }
          ∧ (a.off.toNat < 0x1000 → w = 0#64)
          ∧ (0x1000 ≤ a.off.toNat → ∀ m, m < 8 →
              w.extractLsb' (8 * m) 8 = Config.dataAtReset s.draw (a.off.toNat - 0x1000 + m)))

/-- Whatever a step does while reset is asserted, when it is asserted, or when it is released, it leaves the engine at its
reset values; and only driving the reset input changes its level. -/
def Obligations.StepsUnderResetEndAtReset : Prop :=
  ∀ s t : State, step s = .next t →
    (s.pending ≠ [] → (s.resetAsserted = true ∨ ∃ rest, s.pending = .resetInput true :: rest) → t.AtReset)
      ∧ (∀ l rest, s.pending = .resetInput l :: rest → t.resetAsserted = l)
      ∧ ((∀ l rest, s.pending ≠ .resetInput l :: rest) → t.resetAsserted = s.resetAsserted)

/-! ### CONFIGURE (43_commands.md R163, R165, R166) -/

/-- CONFIGURE with staging that passes every check builds the context from `KEYBUF` and `TWBUF`, writes `ERR <- 0`, and
changes nothing else. -/
def Obligations.ConfigureBuildsContext : Prop :=
  ∀ s : State, (s.bsz.toNat = 256 ∨ s.bsz.toNat = 512 ∨ s.bsz.toNat = 1024) →
    s.keylen.toNat = s.bsz.toNat / 8 → s.twlen.toNat = 16 → s.pmode.toNat ≤ 2 →
    ∃ c : Context,
      exec .configure s = .next { s with ctx := c, err := 0#8 }
        ∧ c.valid = true ∧ c.bits = s.bsz.toNat ∧ c.wc = s.bsz.toNat / 64 ∧ c.pmode.code = s.pmode
        ∧ (∀ j, j < c.wc → ∀ m, m < 8 →
            (c.keyWord j).extractLsb' (8 * m) 8 = s.readByte (keybufBase + (8 * j + m)))
        ∧ c.keyWord c.wc = ((List.range c.wc).map c.keyWord).foldl (fun p k => p ^^^ k) 0x1BD11BDAA9FC1A22#64
        ∧ (∀ j, c.wc < j → j ≤ 16 → c.keyWord j = 0#64)
        ∧ (∀ m, m < 8 → c.t0.extractLsb' (8 * m) 8 = s.readByte (twbufBase + m))
        ∧ (∀ m, m < 8 → c.t1.extractLsb' (8 * m) 8 = s.readByte (twbufBase + (8 + m)))

/-- R163: the first check that fails, in the order block size, key length, tweak length, padding mode, is the error
CONFIGURE raises; it writes `ERR` and changes nothing else. -/
def Obligations.ConfigureRaisesFirstError : Prop :=
  ∀ s : State,
    (¬ (s.bsz.toNat = 256 ∨ s.bsz.toNat = 512 ∨ s.bsz.toNat = 1024) →
        exec .configure s = .next { s with err := 1#8 })
      ∧ ((s.bsz.toNat = 256 ∨ s.bsz.toNat = 512 ∨ s.bsz.toNat = 1024) →
          (s.keylen.toNat ≠ s.bsz.toNat / 8 → exec .configure s = .next { s with err := 2#8 })
            ∧ (s.keylen.toNat = s.bsz.toNat / 8 →
                (s.twlen.toNat ≠ 16 → exec .configure s = .next { s with err := 3#8 })
                  ∧ (s.twlen.toNat = 16 → 2 < s.pmode.toNat → exec .configure s = .next { s with err := 9#8 })))

/-- R36: a step that changes the context is one under reset (which leaves the context of R42), or a `CMD` write that runs
CONFIGURE with staging that passes every check; the whole context is then the one those staging registers give. -/
def Obligations.ContextChangesOnlyByConfigure : Prop :=
  ∀ s t : State, step s = .next t → t.ctx ≠ s.ctx →
    ((s.resetAsserted = true ∨ ∃ rest, s.pending = .resetInput true :: rest) ∧ t.ctx = Context.reset)
      ∨ (s.resetAsserted = false ∧ (∃ rest, s.pending = w64 0x000 (encode .configure) :: rest)
          ∧ (s.bsz.toNat = 256 ∨ s.bsz.toNat = 512 ∨ s.bsz.toNat = 1024)
          ∧ s.keylen.toNat = s.bsz.toNat / 8 ∧ s.twlen.toNat = 16 ∧ s.pmode.toNat ≤ 2
          ∧ configureResult s = .ok t.ctx)

/-- Only a reset takes `STATUS.CTXV` from 1 to 0. -/
def Obligations.ContextValidClearedOnlyByReset : Prop :=
  ∀ s t : State, step s = .next t → (statusWord s).getLsbD 0 = true → (statusWord t).getLsbD 0 = false →
    s.resetAsserted = true ∨ ∃ rest, s.pending = .resetInput true :: rest

/-! ### What every command does and leaves -/

/-- Every command completes, in every state. -/
def Obligations.EveryCommandCompletes : Prop :=
  ∀ (i : Instr) (s : State), ∃ t, exec i s = .next t

/-- No command writes `LEN`, a staging register, `KEYBUF` or `TWBUF`, or any field of the model's own. -/
def Obligations.CommandsLeaveHostRegisters : Prop :=
  ∀ (i : Instr) (s t : State), exec i s = .next t →
    t = { s with outlen := t.outlen, err := t.err, ctx := t.ctx, mem := t.mem }
      ∧ ∀ x, x < 0x1000 → t.readByte x = s.readByte x

/-- Which error codes each command can leave in `STATUS.ERR`. -/
def Obligations.CommandsRaiseOnlyTheirErrors : Prop :=
  ∀ (i : Instr) (s t : State), exec i s = .next t →
    (i = .configure → t.err ∈ [0#8, 1#8, 2#8, 3#8, 9#8])
      ∧ (i = .encrypt → t.err ∈ [0#8, 4#8, 6#8, 7#8])
      ∧ (i = .decrypt → t.err ∈ [0#8, 4#8, 5#8, 6#8, 7#8])

/-- A command that changes a byte of `DATA` is ENCRYPT or DECRYPT and has succeeded; one that ends in an error changes no
byte of memory and no context, and leaves `OUTLEN` 0 if it is ENCRYPT or DECRYPT. -/
def Obligations.FailedCommandsCommitNothing : Prop :=
  ∀ (i : Instr) (s t : State), exec i s = .next t →
    (t.err ≠ 0#8 →
        t = { s with err := t.err, outlen := if i = .configure then s.outlen else 0#64 })
      ∧ ((∃ x, t.readByte x ≠ s.readByte x) → (i = .encrypt ∨ i = .decrypt) ∧ t.err = 0#8)

/-- R164: the two checks ENCRYPT and DECRYPT share, in their order, and what each of the two errors leaves. -/
def Obligations.MessageCommandsCheckContextThenCapacity : Prop :=
  ∀ (i : Instr) (s : State), (i = .encrypt ∨ i = .decrypt) →
    (s.ctx.valid = false → exec i s = .next { s with outlen := 0#64, err := 6#8 })
      ∧ (s.ctx.valid = true → s.dataBytes < s.len.toNat →
          exec i s = .next { s with outlen := 0#64, err := 7#8 })

/-! ### ENCRYPT (43_commands.md R170, R171) -/

/-- R171: in mode None a length other than one block is InvalidInputLength; the padded modes accept every length up to
`DATA_BYTES`. -/
def Obligations.EncryptLengthRule : Prop :=
  ∀ s : State, s.ctx.valid = true → s.len.toNat ≤ s.dataBytes →
    (s.ctx.pmode = .noPadding → s.len.toNat ≠ s.ctx.bits / 8 →
        exec .encrypt s = .next { s with outlen := 0#64, err := 4#8 })
      ∧ (s.ctx.pmode ≠ .noPadding → ∃ t, exec .encrypt s = .next t ∧ t.err = 0#8)

/-- ENCRYPT of a message of `l` bytes that passes the checks: block `k` of `DATA` becomes the transform of block `k` of
the padded message (`x` below), word `j` of it lane `j` of ENC_BLOCK of the words of `x` (41_block_transform.md R129);
`OUTLEN` the padded length, `ERR` 0; every other byte and everything else is unchanged. -/
def Obligations.EncryptWritesCiphertext : Prop :=
  ∀ (s : State) (l b : Nat), s.len.toNat = l → s.ctx.bits / 8 = b →
    s.ctx.valid = true → s.ctx.Wf → l ≤ s.dataBytes → (s.ctx.pmode = .noPadding → l = b) →
    ∃ t, exec .encrypt s = .next t
      ∧ t = { s with mem := t.mem, outlen := BitVec.ofNat 64 (l + padLen l b), err := 0#8 }
      ∧ t.outlen.toNat = l + padLen l b
      ∧ (∀ x, (x < dataBase ∨ dataBase + (l + padLen l b) ≤ x) → t.readByte x = s.readByte x)
      ∧ ∀ k, b * (k + 1) ≤ l + padLen l b → ∀ x : List Byte,
          x = ((List.range b).map fun j =>
                if b * k + j < l then s.readByte (dataBase + (b * k + j))
                else if s.ctx.pmode = .zeroPadding then 0#8 else BitVec.ofNat 8 (padLen l b)) →
          t.readBytes (dataBase + b * k) b = encBlockBytes s.ctx x
            ∧ ∀ j, j < s.ctx.wc →
                (encBlock s.ctx (wordsOf x s.ctx.wc))[j]? = some (le64Get (t.readBytes (dataBase + (b * k + 8 * j)) 8) 0)

/-! ### DECRYPT (43_commands.md R180, R181) -/

/-- R181: in mode None a length other than one block, in the padded modes a length that is not a whole number of blocks,
is InvalidInputLength; length 0 passes in the padded modes. -/
def Obligations.DecryptLengthRule : Prop :=
  ∀ s : State, s.ctx.valid = true → s.len.toNat ≤ s.dataBytes →
    (s.ctx.pmode = .noPadding → s.len.toNat ≠ s.ctx.bits / 8 →
        exec .decrypt s = .next { s with outlen := 0#64, err := 4#8 })
      ∧ (s.ctx.pmode ≠ .noPadding → s.len.toNat % (s.ctx.bits / 8) ≠ 0 →
          exec .decrypt s = .next { s with outlen := 0#64, err := 4#8 })
      ∧ (s.ctx.pmode ≠ .noPadding → s.len.toNat = 0 →
          exec .decrypt s = .next { s with outlen := 0#64, err := 0#8 })

/-- DECRYPT of `n` bytes that passes the checks: block `k` of `DATA` becomes its inverse transform, word `j` of it lane `j`
of DEC_BLOCK of the words of the block (41_block_transform.md R129); `OUTLEN` the length its padding mode gives, `ERR` 0; every other byte and everything else is unchanged. -/
def Obligations.DecryptWritesPlaintext : Prop :=
  ∀ (s : State) (n b : Nat), s.len.toNat = n → s.ctx.bits / 8 = b →
    s.ctx.valid = true → s.ctx.Wf → n ≤ s.dataBytes → n % b = 0 → (s.ctx.pmode = .noPadding → n = b) →
    (s.ctx.pmode = .lengthTag → 0 < n →
      (byteAt (decBlockBytes s.ctx (s.readBytes (dataBase + (n - b)) b)) (b - 1)).toNat ≤ n) →
    ∃ t z, exec .decrypt s = .next t
      ∧ t = { s with mem := t.mem, outlen := BitVec.ofNat 64 z, err := 0#8 }
      ∧ t.outlen.toNat = z
      ∧ (∀ x, (x < dataBase ∨ dataBase + n ≤ x) → t.readByte x = s.readByte x)
      ∧ (∀ k, b * (k + 1) ≤ n →
          t.readBytes (dataBase + b * k) b = decBlockBytes s.ctx (s.readBytes (dataBase + b * k) b)
            ∧ ∀ j, j < s.ctx.wc →
                (decBlock s.ctx (wordsOf (s.readBytes (dataBase + b * k) b) s.ctx.wc))[j]?
                  = some (le64Get (t.readBytes (dataBase + (b * k + 8 * j)) 8) 0))
      ∧ (s.ctx.pmode = .noPadding → z = n)
      ∧ (s.ctx.pmode = .lengthTag → n = 0 → z = 0)
      ∧ (s.ctx.pmode = .lengthTag → 0 < n → z + (t.readByte (dataBase + (n - 1))).toNat = n)
      ∧ (s.ctx.pmode = .zeroPadding →
          z ≤ n ∧ (∀ x, z ≤ x → x < n → t.readByte (dataBase + x) = 0#8)
            ∧ (0 < z → t.readByte (dataBase + (z - 1)) ≠ 0#8))

/-- DECRYPT in LengthTagPadding whose last decrypted byte exceeds the length raises InvalidPadding and keeps the
ciphertext. -/
def Obligations.DecryptInvalidPaddingKeepsData : Prop :=
  ∀ (s : State) (n b : Nat), s.len.toNat = n → s.ctx.bits / 8 = b →
    s.ctx.valid = true → s.ctx.Wf → n ≤ s.dataBytes → n % b = 0 → 0 < n → s.ctx.pmode = .lengthTag →
    n < (byteAt (decBlockBytes s.ctx (s.readBytes (dataBase + (n - b)) b)) (b - 1)).toNat →
    exec .decrypt s = .next { s with outlen := 0#64, err := 5#8 }

/-- ENCRYPT, then the host's `LEN <- OUTLEN`, then DECRYPT gives the message back: its length in `OUTLEN` and its bytes in
`DATA`, in every case in which R142, R145 and R148 say the framing loses nothing. -/
def Obligations.DecryptAfterEncryptRestoresMessage : Prop :=
  ∀ (s t : State) (l b : Nat), s.len.toNat = l → s.ctx.bits / 8 = b → s.ctx.valid = true → s.ctx.Wf →
    exec .encrypt s = .next t → t.err = 0#8 →
    (s.ctx.pmode = .noPadding
      ∨ (s.ctx.pmode = .lengthTag ∧ (l % b ≠ 0 ∨ l = 0 ∨ s.readByte (dataBase + (l - 1)) = 0#8))
      ∨ (s.ctx.pmode = .zeroPadding ∧ (l = 0 ∨ s.readByte (dataBase + (l - 1)) ≠ 0#8))) →
    ∃ u, exec .decrypt { t with len := t.outlen } = .next u
      ∧ u.err = 0#8 ∧ u.outlen = s.len
      ∧ ∀ x, x < l → u.readByte (dataBase + x) = s.readByte (dataBase + x)

/-! ### The block transform (00_scope.md R11, 41_block_transform.md) -/

/-- R11: the rotations by their definition, and that one undoes the other. -/
def Obligations.RotateRightUndoesRotateLeft : Prop :=
  ∀ (x : Word) (n : Nat), n < 64 →
    (n = 0 → rotl64 x n = x)
      ∧ (1 ≤ n → rotl64 x n = (x <<< n ||| x >>> (64 - n)))
      ∧ rotr64 x n = rotl64 x ((64 - n) % 64)
      ∧ rotr64 (rotl64 x n) n = x

/-- A rotation moves bit `(i + 64 - n) mod 64` of the word to bit `i`. -/
def Obligations.RotateLeftMovesBits : Prop :=
  ∀ (x : Word) (n i : Nat), n < 64 → i < 64 → (rotl64 x n).getLsbD i = x.getLsbD ((i + (64 - n)) % 64)

/-- The rotation amount of every step, by the low six bits of the tweak words, the same for every word of the step
(41_block_transform.md R122, a law the spec marks as derived). -/
def Obligations.StepAmountsRepeatTweakBits : Prop :=
  ∀ (c : Context) (s : Nat), s < 18 →
    c.amt s < 64
      ∧ (s % 3 = 0 → c.amt s = c.t0.toNat % 64 ∧ c.amt s = (c.t0.extractLsb' 0 6).toNat)
      ∧ (s % 3 = 1 → c.amt s = c.t1.toNat % 64 ∧ c.amt s = (c.t1.extractLsb' 0 6).toNat)
      ∧ (s % 3 = 2 → c.amt s = (c.t0 ^^^ c.t1).toNat % 64
          ∧ c.amt s = ((c.t0 ^^^ c.t1).extractLsb' 0 6).toNat
          ∧ c.amt s = (c.t0.toNat % 64) ^^^ (c.t1.toNat % 64))
      ∧ ∀ (ws : List Word) (i : Nat) (w : Word), ws[i]? = some w →
          (encStep c ws s)[i]? = some (rotl64 (w ^^^ c.laneKey i) (c.amt s))

/-- R123 and R125: one forward and one inverse step, lane by lane; a step keeps the number of words. -/
def Obligations.StepsUpdateEachLane : Prop :=
  ∀ (c : Context) (ws : List Word) (s : Nat), ws.length = c.wc →
    (encStep c ws s).length = ws.length ∧ (decStep c ws s).length = ws.length
      ∧ ∀ i, i < c.wc → ∀ w, ws[i]? = some w →
          (encStep c ws s)[i]?
              = some (rotl64 (w ^^^ c.keyWord (i % (c.wc + 1))) ((c.tweakWord (4 * s % 3)).toNat % 64))
            ∧ (decStep c ws s)[i]?
              = some (rotr64 w ((c.tweakWord (4 * s % 3)).toNat % 64) ^^^ c.keyWord (i % (c.wc + 1)))
            ∧ c.keyWord (i % (c.wc + 1)) = c.keyWord i

/-- DEC_BLOCK undoes ENC_BLOCK, and (a converse that 41_block_transform.md R127 marks as derived) ENC_BLOCK undoes
DEC_BLOCK, on every block under every context. -/
def Obligations.DecBlockInvertsEncBlock : Prop :=
  ∀ (c : Context) (ws : List Word), ws.length = c.wc →
    decBlock c (encBlock c ws) = ws ∧ encBlock c (decBlock c ws) = ws

/-- ENC_BLOCK in closed form, one lane at a time (41_block_transform.md R130, a law the spec marks as derived). -/
def Obligations.EncBlockClosedForm : Prop :=
  ∀ (c : Context) (ws : List Word) (sums : Nat → Nat), ws.length = c.wc →
    sums 18 = 0 → (∀ s, s < 18 → sums s = (c.amt s + sums (s + 1)) % 64) →
    sums 0 = 6 * (c.t0.toNat % 64 + c.t1.toNat % 64 + ((c.t0.toNat % 64) ^^^ (c.t1.toNat % 64))) % 64
      ∧ ∀ i, i < c.wc → ∀ w, ws[i]? = some w →
          (encBlock c ws)[i]?
            = some ((List.range 18).foldl (fun acc s => acc ^^^ rotl64 (c.keyWord i) (sums s)) (rotl64 w (sums 0)))

/-- The identity cases, a tweak whose low six bits are 0 in both words, and a zero key (41_block_transform.md R131, a law
the spec marks as derived). -/
def Obligations.EncBlockIdentityCases : Prop :=
  ∀ (c : Context) (ws : List Word), ws.length = c.wc →
    (c.t0.toNat % 64 = 0 → c.t1.toNat % 64 = 0 → encBlock c ws = ws)
      ∧ ((∀ j, j < c.wc → c.keyWord j = 0#64) →
          encBlock c ws
              = ws.map (fun w => rotl64 w
                  (6 * (c.t0.toNat % 64 + c.t1.toNat % 64 + ((c.t0.toNat % 64) ^^^ (c.t1.toNat % 64))) % 64))
            ∧ (6 * (c.t0.toNat % 64 + c.t1.toNat % 64 + ((c.t0.toNat % 64) ^^^ (c.t1.toNat % 64))) % 64 = 0 →
                encBlock c ws = ws)
            ∧ (c.t0.toNat % 64 = 32 → c.t1.toNat % 64 = 0 → encBlock c ws = ws))

/-- Tweak dependence (41_block_transform.md R133, a law the spec marks as derived): two tweaks that agree in the low six bits of each word give the same transform for every key and block, for
example the tweak words (0, 0) and (64, 0); with a zero key so do two tweaks of equal total rotation. -/
def Obligations.TweakActsThroughTwelveBits : Prop :=
  (∀ (c d : Context) (ws : List Word), d.k = c.k → d.wc = c.wc → ws.length = c.wc →
      d.t0.toNat % 64 = c.t0.toNat % 64 → d.t1.toNat % 64 = c.t1.toNat % 64 → encBlock d ws = encBlock c ws)
    ∧ (∀ (c : Context) (ws : List Word), ws.length = c.wc →
      encBlock { c with t0 := 0#64, t1 := 0#64 } ws = encBlock { c with t0 := 64#64, t1 := 0#64 } ws)
    ∧ (∀ (c d : Context) (ws : List Word), d.wc = c.wc → ws.length = c.wc →
      (∀ j, j < c.wc → c.keyWord j = 0#64 ∧ d.keyWord j = 0#64) →
      6 * (d.t0.toNat % 64 + d.t1.toNat % 64 + ((d.t0.toNat % 64) ^^^ (d.t1.toNat % 64))) % 64
        = 6 * (c.t0.toNat % 64 + c.t1.toNat % 64 + ((c.t0.toNat % 64) ^^^ (c.t1.toNat % 64))) % 64 →
      encBlock d ws = encBlock c ws)

/-- No transform of a block reads the parity word (40_schedules.md R105, a law the spec marks as derived): two contexts that differ in it alone transform every block alike. -/
def Obligations.ParityWordIsNeverUsed : Prop :=
  ∀ (c d : Context) (ws : List Word), d.wc = c.wc → d.t0 = c.t0 → d.t1 = c.t1 →
    (∀ j, j < c.wc → d.keyWord j = c.keyWord j) → ws.length = c.wc →
    encBlock d ws = encBlock c ws ∧ decBlock d ws = decBlock c ws

/-- Bytes to words and back: the little-endian boundary loses nothing. -/
def Obligations.LittleEndianBoundary : Prop :=
  (∀ (b : List Byte) (o m : Nat), m < 8 → (le64Get b o).extractLsb' (8 * m) 8 = byteAt b (o + m))
    ∧ (∀ w : Word, le64Get (le64Put w) 0 = w)
    ∧ (∀ (b : List Byte) (n : Nat), b.length = 8 * n → bytesOf (wordsOf b n) = b)
    ∧ (∀ ws : List Word, wordsOf (bytesOf ws) ws.length = ws)

/-- The byte forms are the word forms between words and bytes (41_block_transform.md R129); on whole blocks of bytes they
undo each other and keep the length, and word `j` of the result is lane `j` of the word form. -/
def Obligations.ByteFormsInvert : Prop :=
  ∀ (c : Context) (blk : List Byte), blk.length = 8 * c.wc →
    encBlockBytes c blk = bytesOf (encBlock c (wordsOf blk c.wc))
      ∧ decBlockBytes c blk = bytesOf (decBlock c (wordsOf blk c.wc))
      ∧ (∀ j, j < c.wc →
          (encBlock c (wordsOf blk c.wc))[j]? = some (le64Get (encBlockBytes c blk) (8 * j))
            ∧ (decBlock c (wordsOf blk c.wc))[j]? = some (le64Get (decBlockBytes c blk) (8 * j)))
      ∧ (encBlockBytes c blk).length = 8 * c.wc ∧ (decBlockBytes c blk).length = 8 * c.wc
      ∧ decBlockBytes c (encBlockBytes c blk) = blk ∧ encBlockBytes c (decBlockBytes c blk) = blk

/-! ### The padding codec (42_padding.md) -/

/-- R140: the pad length, and that it is the number of bytes to the next block boundary. -/
def Obligations.PadLenReachesBlockBoundary : Prop :=
  ∀ l b : Nat, 0 < b →
    padLen l b = (b - l % b) % b
      ∧ padLen l b < b
      ∧ (l + padLen l b) % b = 0
      ∧ (l % b = 0 → padLen l b = 0)
      ∧ (l % b ≠ 0 → padLen l b = b - l % b)
      ∧ ∀ n, l ≤ n → n % b = 0 → l + padLen l b ≤ n

/-- R143 and R146: the framed message starts with the message; its pad bytes are `padLen(L, B)` many, each of that value in
LengthTagPadding and 0x00 in ZeroPadding. Its length is the smallest multiple of `B` that is at least `L`. -/
def Obligations.PadBytesOfBothModes : Prop :=
  ∀ (b : Nat) (m : List Byte), (b = 32 ∨ b = 64 ∨ b = 128) →
    (ltPad b m).length = m.length + padLen m.length b ∧ (zpPad b m).length = m.length + padLen m.length b
      ∧ (m.length + padLen m.length b) % b = 0
      ∧ (∀ n, m.length ≤ n → n % b = 0 → m.length + padLen m.length b ≤ n)
      ∧ (padLen m.length b = 0 → ltPad b m = m ∧ zpPad b m = m)
      ∧ (∀ i, i < m.length → byteAt (ltPad b m) i = byteAt m i ∧ byteAt (zpPad b m) i = byteAt m i)
      ∧ ∀ i, m.length ≤ i → i < m.length + padLen m.length b →
          (byteAt (ltPad b m) i).toNat = padLen m.length b ∧ byteAt (zpPad b m) i = 0#8

/-- R144 and R147: what each decoder gives for every buffer `x`. -/
def Obligations.UnpadRulesOfBothModes : Prop :=
  ∀ x : List Byte,
    (x.length = 0 → ltUnpad x = .ok x)
      ∧ (∀ p, 0 < x.length → (byteAt x (x.length - 1)).toNat = p →
          (x.length < p → ltUnpad x = .error .invalidPadding)
            ∧ (p ≤ x.length → ltUnpad x = .ok (x.take (x.length - p))))
      ∧ ∃ n, n ≤ x.length ∧ zpUnpad x = x.take n ∧ (∀ i, n ≤ i → i < x.length → byteAt x i = 0#8)
          ∧ (n = 0 ∨ byteAt x (n - 1) ≠ 0#8)

/-- The five cases of the LengthTagPadding round trip, which 42_padding.md R145 marks as derived. -/
def Obligations.LengthTagRoundTripCases : Prop :=
  ∀ (b : Nat) (m : List Byte), (b = 32 ∨ b = 64 ∨ b = 128) →
    (m.length % b ≠ 0 → ltUnpad (ltPad b m) = .ok m)
      ∧ (m.length = 0 → ltUnpad (ltPad b m) = .ok [])
      ∧ (0 < m.length → m.length % b = 0 → byteAt m (m.length - 1) = 0#8 → ltUnpad (ltPad b m) = .ok m)
      ∧ (0 < m.length → m.length % b = 0 →
          ∀ v, (byteAt m (m.length - 1)).toNat = v → 1 ≤ v → v ≤ m.length →
            ltUnpad (ltPad b m) = .ok (m.take (m.length - v)))
      ∧ (0 < m.length → m.length % b = 0 → m.length < (byteAt m (m.length - 1)).toNat →
          ltUnpad (ltPad b m) = .error .invalidPadding ∧ m.length < 256)

/-- The loss of ZeroPadding, which 42_padding.md R148 marks as derived: the ZeroPadding round trip gives the message without its trailing 0x00 bytes, and so the message itself exactly
when it is empty or does not end in 0x00. -/
def Obligations.ZeroPaddingStripsTrailingZeros : Prop :=
  ∀ (b : Nat) (m : List Byte), (b = 32 ∨ b = 64 ∨ b = 128) →
    (zpUnpad (zpPad b m) = m ↔ (m = [] ∨ byteAt m (m.length - 1) ≠ 0#8))
      ∧ ∃ n, n ≤ m.length ∧ zpUnpad (zpPad b m) = m.take n
          ∧ (∀ i, n ≤ i → i < m.length → byteAt m i = 0#8)
          ∧ (0 < n → byteAt m (n - 1) ≠ 0#8)

/-- The framed lengths of the three modes, both ways, which 42_padding.md R149 marks as derived. -/
def Obligations.FramedLengths : Prop :=
  ∀ (b : Nat) (m : List Byte), (b = 32 ∨ b = 64 ∨ b = 128) →
    (m.length = b → frameMessage .noPadding b m = .ok m ∧ unframeMessage .noPadding b m = .ok m)
      ∧ (m.length ≠ b → frameMessage .noPadding b m = .error .invalidInputLength
          ∧ unframeMessage .noPadding b m = .error .invalidInputLength)
      ∧ (∀ mode, mode ≠ .noPadding →
          ∃ x, frameMessage mode b m = .ok x ∧ x.length = m.length + padLen m.length b ∧ x.length % b = 0)
      ∧ (m.length = 0 → unframeMessage .lengthTag b m = .ok [])
      ∧ (0 < m.length → m.length < (byteAt m (m.length - 1)).toNat →
          unframeMessage .lengthTag b m = .error .invalidPadding)
      ∧ (0 < m.length → (byteAt m (m.length - 1)).toNat ≤ m.length →
          ∃ z, unframeMessage .lengthTag b m = .ok z ∧ z.length = m.length - (byteAt m (m.length - 1)).toNat)
      ∧ ∃ z n, unframeMessage .zeroPadding b m = .ok z ∧ z.length + n = m.length
          ∧ (∀ i, z.length ≤ i → i < m.length → byteAt m i = 0#8)
          ∧ (0 < z.length → byteAt m (z.length - 1) ≠ 0#8)

/-! ### Invariants -/

/-- Every step keeps the invariant: the context is one CONFIGURE builds or the one at reset, the memory is canonical and
lists buffer bytes only, `OUTLEN` is within `DATA`, `ERR` is a code of R76, and while reset is asserted the engine holds
its reset values (R220). -/
def Obligations.StepKeepsInvariant : Prop :=
  ∀ s t : State, s.Inv → step s = .next t → t.Inv

/-- The invariant holds at reset, whatever the parameters and the draw of `DATA`. -/
def Obligations.ResetHasInvariant : Prop :=
  (∀ (p : Config.Params) (d : Nat), (State.resetWith p d).Inv) ∧ State.reset.Inv

/-- No step changes the parameters. A step under reset (an event while reset is asserted, or asserting it) draws `DATA` anew,
every other step keeps the draw (both fields are the model's own, log entries 1, 2 and 5). -/
def Obligations.StepKeepsParameters : Prop :=
  ∀ s t : State, step s = .next t →
    t.params = s.params
      ∧ t.draw =
        match s.pending with
        | [] => s.draw
        | .resetInput true :: _ => s.draw + 1
        | .resetInput false :: _ => if s.resetAsserted then s.draw + 1 else s.draw
        | .access _ :: _ => if s.resetAsserted then s.draw + 1 else s.draw
end

