-- ==== Sys2Proof/Laws/State.lean ====
section
/-! SUPPORT. One lemma per field per update of the state: what the update leaves in that field. -/

namespace Sys2Proof.Machine

variable (s : State)

/-! ### writeBytes -/

@[simp] theorem State.writeBytes_bsz (a : Nat) (bs : List Byte) : (s.writeBytes a bs).bsz = s.bsz := rfl
@[simp] theorem State.writeBytes_pmode (a : Nat) (bs : List Byte) : (s.writeBytes a bs).pmode = s.pmode := rfl
@[simp] theorem State.writeBytes_keylen (a : Nat) (bs : List Byte) : (s.writeBytes a bs).keylen = s.keylen := rfl
@[simp] theorem State.writeBytes_twlen (a : Nat) (bs : List Byte) : (s.writeBytes a bs).twlen = s.twlen := rfl
@[simp] theorem State.writeBytes_len (a : Nat) (bs : List Byte) : (s.writeBytes a bs).len = s.len := rfl
@[simp] theorem State.writeBytes_outlen (a : Nat) (bs : List Byte) : (s.writeBytes a bs).outlen = s.outlen := rfl
@[simp] theorem State.writeBytes_err (a : Nat) (bs : List Byte) : (s.writeBytes a bs).err = s.err := rfl
@[simp] theorem State.writeBytes_ctx (a : Nat) (bs : List Byte) : (s.writeBytes a bs).ctx = s.ctx := rfl
@[simp] theorem State.writeBytes_mem (a : Nat) (bs : List Byte) : (s.writeBytes a bs).mem = s.mem.writeAll a bs := rfl
@[simp] theorem State.writeBytes_resetAsserted (a : Nat) (bs : List Byte) : (s.writeBytes a bs).resetAsserted = s.resetAsserted := rfl
@[simp] theorem State.writeBytes_params (a : Nat) (bs : List Byte) : (s.writeBytes a bs).params = s.params := rfl
@[simp] theorem State.writeBytes_draw (a : Nat) (bs : List Byte) : (s.writeBytes a bs).draw = s.draw := rfl
@[simp] theorem State.writeBytes_pending (a : Nat) (bs : List Byte) : (s.writeBytes a bs).pending = s.pending := rfl
@[simp] theorem State.writeBytes_replies (a : Nat) (bs : List Byte) : (s.writeBytes a bs).replies = s.replies := rfl

/-! ### writeWord -/

@[simp] theorem State.writeWord_bsz (a : Nat) (w : Word) : (s.writeWord a w).bsz = s.bsz := rfl
@[simp] theorem State.writeWord_pmode (a : Nat) (w : Word) : (s.writeWord a w).pmode = s.pmode := rfl
@[simp] theorem State.writeWord_keylen (a : Nat) (w : Word) : (s.writeWord a w).keylen = s.keylen := rfl
@[simp] theorem State.writeWord_twlen (a : Nat) (w : Word) : (s.writeWord a w).twlen = s.twlen := rfl
@[simp] theorem State.writeWord_len (a : Nat) (w : Word) : (s.writeWord a w).len = s.len := rfl
@[simp] theorem State.writeWord_outlen (a : Nat) (w : Word) : (s.writeWord a w).outlen = s.outlen := rfl
@[simp] theorem State.writeWord_err (a : Nat) (w : Word) : (s.writeWord a w).err = s.err := rfl
@[simp] theorem State.writeWord_ctx (a : Nat) (w : Word) : (s.writeWord a w).ctx = s.ctx := rfl
@[simp] theorem State.writeWord_mem (a : Nat) (w : Word) : (s.writeWord a w).mem = s.mem.writeAll a (le64Put w) := rfl
@[simp] theorem State.writeWord_resetAsserted (a : Nat) (w : Word) : (s.writeWord a w).resetAsserted = s.resetAsserted := rfl
@[simp] theorem State.writeWord_params (a : Nat) (w : Word) : (s.writeWord a w).params = s.params := rfl
@[simp] theorem State.writeWord_draw (a : Nat) (w : Word) : (s.writeWord a w).draw = s.draw := rfl
@[simp] theorem State.writeWord_pending (a : Nat) (w : Word) : (s.writeWord a w).pending = s.pending := rfl
@[simp] theorem State.writeWord_replies (a : Nat) (w : Word) : (s.writeWord a w).replies = s.replies := rfl

/-! ### setErr -/

@[simp] theorem State.setErr_bsz (e : Byte) : (s.setErr e).bsz = s.bsz := rfl
@[simp] theorem State.setErr_pmode (e : Byte) : (s.setErr e).pmode = s.pmode := rfl
@[simp] theorem State.setErr_keylen (e : Byte) : (s.setErr e).keylen = s.keylen := rfl
@[simp] theorem State.setErr_twlen (e : Byte) : (s.setErr e).twlen = s.twlen := rfl
@[simp] theorem State.setErr_len (e : Byte) : (s.setErr e).len = s.len := rfl
@[simp] theorem State.setErr_outlen (e : Byte) : (s.setErr e).outlen = s.outlen := rfl
@[simp] theorem State.setErr_err (e : Byte) : (s.setErr e).err = e := rfl
@[simp] theorem State.setErr_ctx (e : Byte) : (s.setErr e).ctx = s.ctx := rfl
@[simp] theorem State.setErr_mem (e : Byte) : (s.setErr e).mem = s.mem := rfl
@[simp] theorem State.setErr_resetAsserted (e : Byte) : (s.setErr e).resetAsserted = s.resetAsserted := rfl
@[simp] theorem State.setErr_params (e : Byte) : (s.setErr e).params = s.params := rfl
@[simp] theorem State.setErr_draw (e : Byte) : (s.setErr e).draw = s.draw := rfl
@[simp] theorem State.setErr_pending (e : Byte) : (s.setErr e).pending = s.pending := rfl
@[simp] theorem State.setErr_replies (e : Byte) : (s.setErr e).replies = s.replies := rfl

/-! ### setOutlen -/

@[simp] theorem State.setOutlen_bsz (n : Nat) : (s.setOutlen n).bsz = s.bsz := rfl
@[simp] theorem State.setOutlen_pmode (n : Nat) : (s.setOutlen n).pmode = s.pmode := rfl
@[simp] theorem State.setOutlen_keylen (n : Nat) : (s.setOutlen n).keylen = s.keylen := rfl
@[simp] theorem State.setOutlen_twlen (n : Nat) : (s.setOutlen n).twlen = s.twlen := rfl
@[simp] theorem State.setOutlen_len (n : Nat) : (s.setOutlen n).len = s.len := rfl
@[simp] theorem State.setOutlen_outlen (n : Nat) : (s.setOutlen n).outlen = BitVec.ofNat 64 n := rfl
@[simp] theorem State.setOutlen_err (n : Nat) : (s.setOutlen n).err = s.err := rfl
@[simp] theorem State.setOutlen_ctx (n : Nat) : (s.setOutlen n).ctx = s.ctx := rfl
@[simp] theorem State.setOutlen_mem (n : Nat) : (s.setOutlen n).mem = s.mem := rfl
@[simp] theorem State.setOutlen_resetAsserted (n : Nat) : (s.setOutlen n).resetAsserted = s.resetAsserted := rfl
@[simp] theorem State.setOutlen_params (n : Nat) : (s.setOutlen n).params = s.params := rfl
@[simp] theorem State.setOutlen_draw (n : Nat) : (s.setOutlen n).draw = s.draw := rfl
@[simp] theorem State.setOutlen_pending (n : Nat) : (s.setOutlen n).pending = s.pending := rfl
@[simp] theorem State.setOutlen_replies (n : Nat) : (s.setOutlen n).replies = s.replies := rfl

/-! ### setCtx -/

@[simp] theorem State.setCtx_bsz (c : Context) : (s.setCtx c).bsz = s.bsz := rfl
@[simp] theorem State.setCtx_pmode (c : Context) : (s.setCtx c).pmode = s.pmode := rfl
@[simp] theorem State.setCtx_keylen (c : Context) : (s.setCtx c).keylen = s.keylen := rfl
@[simp] theorem State.setCtx_twlen (c : Context) : (s.setCtx c).twlen = s.twlen := rfl
@[simp] theorem State.setCtx_len (c : Context) : (s.setCtx c).len = s.len := rfl
@[simp] theorem State.setCtx_outlen (c : Context) : (s.setCtx c).outlen = s.outlen := rfl
@[simp] theorem State.setCtx_err (c : Context) : (s.setCtx c).err = s.err := rfl
@[simp] theorem State.setCtx_ctx (c : Context) : (s.setCtx c).ctx = c := rfl
@[simp] theorem State.setCtx_mem (c : Context) : (s.setCtx c).mem = s.mem := rfl
@[simp] theorem State.setCtx_resetAsserted (c : Context) : (s.setCtx c).resetAsserted = s.resetAsserted := rfl
@[simp] theorem State.setCtx_params (c : Context) : (s.setCtx c).params = s.params := rfl
@[simp] theorem State.setCtx_draw (c : Context) : (s.setCtx c).draw = s.draw := rfl
@[simp] theorem State.setCtx_pending (c : Context) : (s.setCtx c).pending = s.pending := rfl
@[simp] theorem State.setCtx_replies (c : Context) : (s.setCtx c).replies = s.replies := rfl

/-! ### succeed -/

@[simp] theorem State.succeed_bsz : (s.succeed).bsz = s.bsz := rfl
@[simp] theorem State.succeed_pmode : (s.succeed).pmode = s.pmode := rfl
@[simp] theorem State.succeed_keylen : (s.succeed).keylen = s.keylen := rfl
@[simp] theorem State.succeed_twlen : (s.succeed).twlen = s.twlen := rfl
@[simp] theorem State.succeed_len : (s.succeed).len = s.len := rfl
@[simp] theorem State.succeed_outlen : (s.succeed).outlen = s.outlen := rfl
@[simp] theorem State.succeed_err : (s.succeed).err = 0#8 := rfl
@[simp] theorem State.succeed_ctx : (s.succeed).ctx = s.ctx := rfl
@[simp] theorem State.succeed_mem : (s.succeed).mem = s.mem := rfl
@[simp] theorem State.succeed_resetAsserted : (s.succeed).resetAsserted = s.resetAsserted := rfl
@[simp] theorem State.succeed_params : (s.succeed).params = s.params := rfl
@[simp] theorem State.succeed_draw : (s.succeed).draw = s.draw := rfl
@[simp] theorem State.succeed_pending : (s.succeed).pending = s.pending := rfl
@[simp] theorem State.succeed_replies : (s.succeed).replies = s.replies := rfl

/-! ### setPending -/

@[simp] theorem State.setPending_bsz (es : List HostEvent) : (s.setPending es).bsz = s.bsz := rfl
@[simp] theorem State.setPending_pmode (es : List HostEvent) : (s.setPending es).pmode = s.pmode := rfl
@[simp] theorem State.setPending_keylen (es : List HostEvent) : (s.setPending es).keylen = s.keylen := rfl
@[simp] theorem State.setPending_twlen (es : List HostEvent) : (s.setPending es).twlen = s.twlen := rfl
@[simp] theorem State.setPending_len (es : List HostEvent) : (s.setPending es).len = s.len := rfl
@[simp] theorem State.setPending_outlen (es : List HostEvent) : (s.setPending es).outlen = s.outlen := rfl
@[simp] theorem State.setPending_err (es : List HostEvent) : (s.setPending es).err = s.err := rfl
@[simp] theorem State.setPending_ctx (es : List HostEvent) : (s.setPending es).ctx = s.ctx := rfl
@[simp] theorem State.setPending_mem (es : List HostEvent) : (s.setPending es).mem = s.mem := rfl
@[simp] theorem State.setPending_resetAsserted (es : List HostEvent) : (s.setPending es).resetAsserted = s.resetAsserted := rfl
@[simp] theorem State.setPending_params (es : List HostEvent) : (s.setPending es).params = s.params := rfl
@[simp] theorem State.setPending_draw (es : List HostEvent) : (s.setPending es).draw = s.draw := rfl
@[simp] theorem State.setPending_pending (es : List HostEvent) : (s.setPending es).pending = es := rfl
@[simp] theorem State.setPending_replies (es : List HostEvent) : (s.setPending es).replies = s.replies := rfl

/-! ### reply -/

@[simp] theorem State.reply_bsz (w : Word) : (s.reply w).bsz = s.bsz := rfl
@[simp] theorem State.reply_pmode (w : Word) : (s.reply w).pmode = s.pmode := rfl
@[simp] theorem State.reply_keylen (w : Word) : (s.reply w).keylen = s.keylen := rfl
@[simp] theorem State.reply_twlen (w : Word) : (s.reply w).twlen = s.twlen := rfl
@[simp] theorem State.reply_len (w : Word) : (s.reply w).len = s.len := rfl
@[simp] theorem State.reply_outlen (w : Word) : (s.reply w).outlen = s.outlen := rfl
@[simp] theorem State.reply_err (w : Word) : (s.reply w).err = s.err := rfl
@[simp] theorem State.reply_ctx (w : Word) : (s.reply w).ctx = s.ctx := rfl
@[simp] theorem State.reply_mem (w : Word) : (s.reply w).mem = s.mem := rfl
@[simp] theorem State.reply_resetAsserted (w : Word) : (s.reply w).resetAsserted = s.resetAsserted := rfl
@[simp] theorem State.reply_params (w : Word) : (s.reply w).params = s.params := rfl
@[simp] theorem State.reply_draw (w : Word) : (s.reply w).draw = s.draw := rfl
@[simp] theorem State.reply_pending (w : Word) : (s.reply w).pending = s.pending := rfl
@[simp] theorem State.reply_replies (w : Word) : (s.reply w).replies = s.replies ++ [w] := rfl

/-! ### withCommandWrite -/

@[simp] theorem State.withCommandWrite_bsz (c : Word) : (s.withCommandWrite c).bsz = s.bsz := rfl
@[simp] theorem State.withCommandWrite_pmode (c : Word) : (s.withCommandWrite c).pmode = s.pmode := rfl
@[simp] theorem State.withCommandWrite_keylen (c : Word) : (s.withCommandWrite c).keylen = s.keylen := rfl
@[simp] theorem State.withCommandWrite_twlen (c : Word) : (s.withCommandWrite c).twlen = s.twlen := rfl
@[simp] theorem State.withCommandWrite_len (c : Word) : (s.withCommandWrite c).len = s.len := rfl
@[simp] theorem State.withCommandWrite_outlen (c : Word) : (s.withCommandWrite c).outlen = s.outlen := rfl
@[simp] theorem State.withCommandWrite_err (c : Word) : (s.withCommandWrite c).err = s.err := rfl
@[simp] theorem State.withCommandWrite_ctx (c : Word) : (s.withCommandWrite c).ctx = s.ctx := rfl
@[simp] theorem State.withCommandWrite_mem (c : Word) : (s.withCommandWrite c).mem = s.mem := rfl
@[simp] theorem State.withCommandWrite_resetAsserted (c : Word) : (s.withCommandWrite c).resetAsserted = s.resetAsserted := rfl
@[simp] theorem State.withCommandWrite_params (c : Word) : (s.withCommandWrite c).params = s.params := rfl
@[simp] theorem State.withCommandWrite_draw (c : Word) : (s.withCommandWrite c).draw = s.draw := rfl
@[simp] theorem State.withCommandWrite_pending (c : Word) : (s.withCommandWrite c).pending = w64 0x000 c :: s.pending := rfl
@[simp] theorem State.withCommandWrite_replies (c : Word) : (s.withCommandWrite c).replies = s.replies := rfl

/-! ### takeReset -/

@[simp] theorem State.takeReset_bsz : (s.takeReset).bsz = 0#64 := rfl
@[simp] theorem State.takeReset_pmode : (s.takeReset).pmode = 0#64 := rfl
@[simp] theorem State.takeReset_keylen : (s.takeReset).keylen = 0#64 := rfl
@[simp] theorem State.takeReset_twlen : (s.takeReset).twlen = 0#64 := rfl
@[simp] theorem State.takeReset_len : (s.takeReset).len = 0#64 := rfl
@[simp] theorem State.takeReset_outlen : (s.takeReset).outlen = 0#64 := rfl
@[simp] theorem State.takeReset_err : (s.takeReset).err = 0#8 := rfl
@[simp] theorem State.takeReset_ctx : (s.takeReset).ctx = Context.reset := rfl
@[simp] theorem State.takeReset_mem : (s.takeReset).mem = [] := rfl
@[simp] theorem State.takeReset_resetAsserted : (s.takeReset).resetAsserted = s.resetAsserted := rfl
@[simp] theorem State.takeReset_params : (s.takeReset).params = s.params := rfl
@[simp] theorem State.takeReset_draw : (s.takeReset).draw = s.draw + 1 := rfl
@[simp] theorem State.takeReset_pending : (s.takeReset).pending = s.pending := rfl
@[simp] theorem State.takeReset_replies : (s.takeReset).replies = s.replies := rfl

/-- After a reset the state is the one at reset. -/
theorem State.takeReset_atReset : s.takeReset.AtReset := rfl

/-! ### driveReset -/

theorem State.driveReset_true : s.driveReset true = { s.takeReset with resetAsserted := true } := by
  simp [State.driveReset]

theorem State.driveReset_of_asserted {s : State} (h : s.resetAsserted = true) (l : Bool) :
    s.driveReset l = { s.takeReset with resetAsserted := l } := by
  simp [State.driveReset, h]

/-- Releasing a reset that is not asserted changes nothing. -/
theorem State.driveReset_false {s : State} (h : s.resetAsserted = false) : s.driveReset false = s := by
  simp [State.driveReset, h]

/-- Everything driving the reset input can do. -/
theorem State.driveReset_cases (l : Bool) :
    (s.resetAsserted = false ∧ l = false ∧ s.driveReset l = s)
      ∨ ((s.resetAsserted = true ∨ l = true) ∧ s.driveReset l = { s.takeReset with resetAsserted := l }) := by
  cases hr : s.resetAsserted <;> cases l
  · exact .inl ⟨rfl, rfl, State.driveReset_false hr⟩
  · exact .inr ⟨.inr rfl, s.driveReset_true⟩
  · exact .inr ⟨.inl rfl, State.driveReset_of_asserted hr false⟩
  · exact .inr ⟨.inl rfl, State.driveReset_of_asserted hr true⟩

@[simp] theorem State.driveReset_resetAsserted (l : Bool) : (s.driveReset l).resetAsserted = l := by
  rcases s.driveReset_cases l with ⟨hr, rfl, h⟩ | ⟨_, h⟩ <;> rw [h]
  exact hr
@[simp] theorem State.driveReset_params (l : Bool) : (s.driveReset l).params = s.params := by
  rcases s.driveReset_cases l with ⟨_, _, h⟩ | ⟨_, h⟩ <;> simp [h]
@[simp] theorem State.driveReset_pending (l : Bool) : (s.driveReset l).pending = s.pending := by
  rcases s.driveReset_cases l with ⟨_, _, h⟩ | ⟨_, h⟩ <;> simp [h]
@[simp] theorem State.driveReset_replies (l : Bool) : (s.driveReset l).replies = s.replies := by
  rcases s.driveReset_cases l with ⟨_, _, h⟩ | ⟨_, h⟩ <;> simp [h]

/-! ### holdReset -/

theorem State.holdReset_of_asserted {s : State} (h : s.resetAsserted = true) : s.holdReset = s.takeReset := by
  simp [State.holdReset, h]

theorem State.holdReset_of_released {s : State} (h : s.resetAsserted = false) : s.holdReset = s := by
  simp [State.holdReset, h]

@[simp] theorem State.holdReset_resetAsserted : s.holdReset.resetAsserted = s.resetAsserted := by
  unfold State.holdReset; split <;> rfl
@[simp] theorem State.holdReset_params : s.holdReset.params = s.params := by
  unfold State.holdReset; split <;> rfl
@[simp] theorem State.holdReset_pending : s.holdReset.pending = s.pending := by
  unfold State.holdReset; split <;> rfl
@[simp] theorem State.holdReset_replies : s.holdReset.replies = s.replies := by
  unfold State.holdReset; split <;> rfl

/-! ### raise -/

@[simp] theorem State.raise_bsz (who : RaisedBy) (k : ErrKind) : (s.raise who k).bsz = s.bsz := by
  cases who <;> rfl
@[simp] theorem State.raise_pmode (who : RaisedBy) (k : ErrKind) : (s.raise who k).pmode = s.pmode := by
  cases who <;> rfl
@[simp] theorem State.raise_keylen (who : RaisedBy) (k : ErrKind) : (s.raise who k).keylen = s.keylen := by
  cases who <;> rfl
@[simp] theorem State.raise_twlen (who : RaisedBy) (k : ErrKind) : (s.raise who k).twlen = s.twlen := by
  cases who <;> rfl
@[simp] theorem State.raise_len (who : RaisedBy) (k : ErrKind) : (s.raise who k).len = s.len := by
  cases who <;> rfl
@[simp] theorem State.raise_ctx (who : RaisedBy) (k : ErrKind) : (s.raise who k).ctx = s.ctx := by
  cases who <;> rfl
@[simp] theorem State.raise_mem (who : RaisedBy) (k : ErrKind) : (s.raise who k).mem = s.mem := by
  cases who <;> rfl
@[simp] theorem State.raise_resetAsserted (who : RaisedBy) (k : ErrKind) :
    (s.raise who k).resetAsserted = s.resetAsserted := by
  cases who <;> rfl
@[simp] theorem State.raise_params (who : RaisedBy) (k : ErrKind) : (s.raise who k).params = s.params := by
  cases who <;> rfl
@[simp] theorem State.raise_draw (who : RaisedBy) (k : ErrKind) : (s.raise who k).draw = s.draw := by
  cases who <;> rfl
@[simp] theorem State.raise_pending (who : RaisedBy) (k : ErrKind) : (s.raise who k).pending = s.pending := by
  cases who <;> rfl
@[simp] theorem State.raise_replies (who : RaisedBy) (k : ErrKind) : (s.raise who k).replies = s.replies := by
  cases who <;> rfl
@[simp] theorem State.raise_err (who : RaisedBy) (k : ErrKind) : (s.raise who k).err = k.code := by
  cases who <;> rfl
@[simp] theorem State.raise_configure_outlen (k : ErrKind) : (s.raise .configure k).outlen = s.outlen := rfl
@[simp] theorem State.raise_message_outlen (k : ErrKind) : (s.raise .message k).outlen = 0#64 := rfl
@[simp] theorem State.raise_illegalWord_outlen (k : ErrKind) : (s.raise .illegalWord k).outlen = s.outlen := rfl

/-! ### What an error leaves, whole (60_exceptions.md R203) -/

theorem State.raise_configure (k : ErrKind) : s.raise .configure k = { s with err := k.code } := rfl

theorem State.raise_message (k : ErrKind) : s.raise .message k = { s with outlen := 0#64, err := k.code } := rfl

theorem State.raise_illegalWord (k : ErrKind) : s.raise .illegalWord k = { s with err := k.code } := rfl

/-! ### The capacity follows the parameters -/

theorem State.dataBytes_eq : s.dataBytes = s.params.dataBytes := rfl

end Sys2Proof.Machine
end

