-- ==== Sys2Proof/Laws/Memory.lean ====
section
/-! SUPPORT. The memory of the buffers: what a write does to every byte, and that every operation keeps the canonical
form and lists buffer bytes only. -/

namespace Sys2Proof.Machine

/-! ### Reading after writing -/

@[simp] theorem Memory.find_nil (x : Nat) : Memory.find [] x = none := rfl

theorem Memory.find_cons (a : Nat) (b : Byte) (m : Memory) (x : Nat) :
    Memory.find ((a, b) :: m) x = if x = a then some b else Memory.find m x := rfl

theorem Memory.find_insertCell (m : Memory) (a : Nat) (b : Byte) (x : Nat) :
    (m.insertCell a b).find x = if x = a then some b else m.find x := by
  induction m with
  | nil => simp [Memory.insertCell, Memory.find_cons]
  | cons c m ih =>
    obtain ⟨a', b'⟩ := c
    rw [Memory.insertCell]
    split
    · simp [Memory.find_cons]
    · split
      · next h => subst h; simp only [Memory.find_cons]; split <;> simp_all
      · simp only [Memory.find_cons, ih]
        split
        · next h => subst h; split <;> simp_all
        · rfl

theorem Memory.find_removeCell (m : Memory) (a x : Nat) :
    (m.removeCell a).find x = if x = a then none else m.find x := by
  induction m with
  | nil => simp [Memory.removeCell]
  | cons c m ih =>
    obtain ⟨a', b'⟩ := c
    rw [Memory.removeCell]
    split
    · next h => subst h; simp only [ih, Memory.find_cons]; split <;> simp_all
    · simp only [Memory.find_cons, ih]
      split
      · next h => subst h; split <;> simp_all
      · rfl

theorem Memory.known_of_lt {a : Nat} (h : a < 0x1000) : Memory.known a = some 0#8 := if_pos h

theorem Memory.known_of_ge {a : Nat} (h : 0x1000 ≤ a) : Memory.known a = none := if_neg (Nat.not_lt.mpr h)

theorem Memory.unlisted_of_known {a : Nat} {b : Byte} (h : Memory.known a = some b) (draw : Nat) :
    Memory.unlisted draw a = b := by
  simp [Memory.unlisted, h]

/-- `KEYBUF` and `TWBUF` read 0x00 where nothing has written them. -/
theorem Memory.unlisted_of_lt {a : Nat} (h : a < 0x1000) (draw : Nat) : Memory.unlisted draw a = 0#8 :=
  Memory.unlisted_of_known (Memory.known_of_lt h) draw

/-- `DATA` reads its byte of the free draw where nothing has written it. -/
theorem Memory.unlisted_data (i draw : Nat) : Memory.unlisted draw (0x1000 + i) = Config.dataAtReset draw i := by
  simp [Memory.unlisted, Memory.known_of_ge (show 0x1000 ≤ 0x1000 + i by omega)]

/-- Everything one byte write does to reads. -/
theorem Memory.getD_find_write (m : Memory) (a : Nat) (b : Byte) (draw x : Nat) :
    ((m.write a b).find x).getD (Memory.unlisted draw x)
      = if x = a then b else (m.find x).getD (Memory.unlisted draw x) := by
  unfold Memory.write
  split
  · next h =>
    rw [Memory.find_removeCell]
    split
    · next hx => subst hx; simp [Memory.unlisted_of_known h]
    · rfl
  · rw [Memory.find_insertCell]
    split <;> simp

theorem State.readByte_eq (s : State) (x : Nat) :
    s.readByte x = (s.mem.find x).getD (Memory.unlisted s.draw x) := by
  unfold State.readByte
  cases s.mem.find x <;> rfl

@[simp] theorem byteAt_cons_zero (b : Byte) (bs : List Byte) : byteAt (b :: bs) 0 = b := rfl

@[simp] theorem byteAt_cons_succ (b : Byte) (bs : List Byte) (i : Nat) : byteAt (b :: bs) (i + 1) = byteAt bs i := rfl

theorem Memory.getD_find_writeAll (m : Memory) (a : Nat) (bs : List Byte) (draw x : Nat) :
    ((m.writeAll a bs).find x).getD (Memory.unlisted draw x)
      = if a ≤ x ∧ x < a + bs.length then byteAt bs (x - a) else (m.find x).getD (Memory.unlisted draw x) := by
  induction bs generalizing m a with
  | nil =>
    have : ¬ (a ≤ x ∧ x < a + 0) := by omega
    rw [List.length_nil, if_neg this]; rfl
  | cons b bs ih =>
    simp only [Memory.writeAll, ih, Memory.getD_find_write, List.length_cons]
    by_cases hx : x = a
    · subst hx; simp
    · by_cases h : a + 1 ≤ x ∧ x < a + 1 + bs.length
      · have h' : a ≤ x ∧ x < a + (bs.length + 1) := by omega
        obtain ⟨k, hk⟩ : ∃ k, x - a = k + 1 := ⟨x - a - 1, by omega⟩
        have hk' : x - (a + 1) = k := by omega
        rw [if_pos h, if_pos h', hk, hk', byteAt_cons_succ]
      · have h' : ¬ (a ≤ x ∧ x < a + (bs.length + 1)) := by omega
        rw [if_neg h, if_neg h', if_neg hx]

/-- Everything a write of consecutive bytes does to reads: the bytes written, and every other byte as before. -/
theorem State.readByte_writeBytes (s : State) (a : Nat) (bs : List Byte) (x : Nat) :
    (s.writeBytes a bs).readByte x
      = if a ≤ x ∧ x < a + bs.length then byteAt bs (x - a) else s.readByte x := by
  simp only [State.readByte_eq, State.writeBytes_mem, State.writeBytes_draw, Memory.getD_find_writeAll]

/-- Bytes read depend on the memory and the draw alone. -/
theorem State.readByte_congr {s t : State} (hm : t.mem = s.mem) (hd : t.draw = s.draw) (x : Nat) :
    t.readByte x = s.readByte x := by
  simp only [State.readByte_eq, hm, hd]

@[simp] theorem State.readByte_setErr (s : State) (e : Byte) (x : Nat) : (s.setErr e).readByte x = s.readByte x := rfl
@[simp] theorem State.readByte_setOutlen (s : State) (n x : Nat) : (s.setOutlen n).readByte x = s.readByte x := rfl
@[simp] theorem State.readByte_setCtx (s : State) (c : Context) (x : Nat) : (s.setCtx c).readByte x = s.readByte x := rfl
@[simp] theorem State.readByte_succeed (s : State) (x : Nat) : s.succeed.readByte x = s.readByte x := rfl
@[simp] theorem State.readByte_setPending (s : State) (es : List HostEvent) (x : Nat) :
    (s.setPending es).readByte x = s.readByte x := rfl
@[simp] theorem State.readByte_reply (s : State) (w : Word) (x : Nat) : (s.reply w).readByte x = s.readByte x := rfl
@[simp] theorem State.readByte_raise (s : State) (who : RaisedBy) (k : ErrKind) (x : Nat) :
    (s.raise who k).readByte x = s.readByte x := State.readByte_congr (by simp) (by simp) x

@[simp] theorem State.length_readBytes (s : State) (a n : Nat) : (s.readBytes a n).length = n := by
  simp [State.readBytes]

theorem State.byteAt_readBytes (s : State) (a : Nat) {n i : Nat} (h : i < n) :
    byteAt (s.readBytes a n) i = s.readByte (a + i) := by
  simp [byteAt, State.readBytes, List.getD_eq_getElem?_getD, h]

@[simp] theorem State.length_dataPrefix (s : State) (n : Nat) : (s.dataPrefix n).length = n := s.length_readBytes _ _

@[simp] theorem State.length_keyBytes (s : State) (n : Nat) : (s.keyBytes n).length = n := s.length_readBytes _ _

@[simp] theorem State.length_tweakBytes (s : State) : s.tweakBytes.length = 16 := s.length_readBytes _ _

/-! ### The canonical form -/

@[simp] theorem Memory.wf_nil : Memory.wf [] = true := rfl

theorem Memory.wf_cons (a : Nat) (b : Byte) (m : Memory) :
    Memory.wf ((a, b) :: m) = true ↔ m.above a = true ∧ Memory.known a ≠ some b ∧ m.wf = true := by
  simp [Memory.wf, and_assoc]

theorem Memory.above_cons (a' : Nat) (b : Byte) (m : Memory) (a : Nat) :
    Memory.above ((a', b) :: m) a = true ↔ a < a' ∧ m.above a = true := by
  simp [Memory.above]

theorem Memory.above_mono {m : Memory} {a a' : Nat} (h : m.above a' = true) (ha : a ≤ a') : m.above a = true := by
  simp only [Memory.above, List.all_eq_true, decide_eq_true_eq] at *
  intro c hc
  have := h c hc
  omega

theorem Memory.above_insertCell {m : Memory} {a x : Nat} (b : Byte) (h : m.above a = true) (hx : a < x) :
    (m.insertCell x b).above a = true := by
  induction m with
  | nil => simp [Memory.insertCell, Memory.above, hx]
  | cons c m ih =>
    obtain ⟨a', b'⟩ := c
    rw [Memory.above_cons] at h
    rw [Memory.insertCell]
    split
    · simp [Memory.above_cons, h, hx]
    · split
      · simp [Memory.above_cons, h, hx]
      · simp [Memory.above_cons, h, ih h.2]

theorem Memory.above_removeCell {m : Memory} {a : Nat} (x : Nat) (h : m.above a = true) :
    (m.removeCell x).above a = true := by
  induction m with
  | nil => simpa [Memory.removeCell] using h
  | cons c m ih =>
    obtain ⟨a', b'⟩ := c
    rw [Memory.above_cons] at h
    rw [Memory.removeCell]
    split
    · exact ih h.2
    · simp [Memory.above_cons, h, ih h.2]

theorem Memory.wf_insertCell {m : Memory} {a : Nat} {b : Byte} (h : m.wf = true) (hb : Memory.known a ≠ some b) :
    (m.insertCell a b).wf = true := by
  induction m with
  | nil => simp [Memory.insertCell, Memory.wf_cons, Memory.above, hb]
  | cons c m ih =>
    obtain ⟨a', b'⟩ := c
    have h' := (Memory.wf_cons a' b' m).mp h
    rw [Memory.insertCell]
    split
    · next hlt =>
      refine (Memory.wf_cons ..).mpr ⟨?_, hb, h⟩
      exact (Memory.above_cons ..).mpr ⟨hlt, Memory.above_mono h'.1 hlt.le⟩
    · split
      · next heq => subst heq; exact (Memory.wf_cons ..).mpr ⟨h'.1, hb, h'.2.2⟩
      · exact (Memory.wf_cons ..).mpr ⟨Memory.above_insertCell b h'.1 (by omega), h'.2.1, ih h'.2.2⟩

theorem Memory.wf_removeCell {m : Memory} (a : Nat) (h : m.wf = true) : (m.removeCell a).wf = true := by
  induction m with
  | nil => rfl
  | cons c m ih =>
    obtain ⟨a', b'⟩ := c
    have h' := (Memory.wf_cons a' b' m).mp h
    rw [Memory.removeCell]
    split
    · exact ih h'.2.2
    · exact (Memory.wf_cons ..).mpr ⟨Memory.above_removeCell a h'.1, h'.2.1, ih h'.2.2⟩

theorem Memory.wf_write {m : Memory} (a : Nat) (b : Byte) (h : m.wf = true) : (m.write a b).wf = true := by
  unfold Memory.write
  split
  · exact Memory.wf_removeCell a h
  · next hb => exact Memory.wf_insertCell h hb

/-- Every memory operation keeps the canonical form. -/
theorem Memory.wf_writeAll {m : Memory} (a : Nat) (bs : List Byte) (h : m.wf = true) : (m.writeAll a bs).wf = true := by
  induction bs generalizing m a with
  | nil => exact h
  | cons b bs ih => exact ih (a + 1) (Memory.wf_write a b h)

theorem State.resetWith_mem_wf (p : Config.Params) (d : Nat) : (State.resetWith p d).mem.wf = true := rfl

theorem State.reset_mem_wf : State.reset.mem.wf = true := rfl

theorem Memory.find_eq_none_of_above {m : Memory} {a x : Nat} (h : m.above a = true) (hx : x ≤ a) : m.find x = none := by
  induction m with
  | nil => rfl
  | cons c m ih =>
    obtain ⟨a', b'⟩ := c
    rw [Memory.above_cons] at h
    rw [Memory.find_cons, if_neg (by omega), ih h.2]

/-- Two memories in the canonical form that list the same bytes are the same data. -/
theorem Memory.eq_of_find_eq {m m' : Memory} (h : m.wf = true) (h' : m'.wf = true)
    (hf : ∀ x, m.find x = m'.find x) : m = m' := by
  induction m generalizing m' with
  | nil =>
    cases m' with
    | nil => rfl
    | cons c m' => have := hf c.1; simp [Memory.find] at this
  | cons c m ih =>
    obtain ⟨a, b⟩ := c
    cases m' with
    | nil => have := hf a; simp [Memory.find] at this
    | cons c' m' =>
      obtain ⟨a', b'⟩ := c'
      rw [Memory.wf_cons] at h h'
      have haa : a = a' := by
        by_contra hne
        rcases Nat.lt_or_gt_of_ne hne with hlt | hgt
        · have := hf a
          rw [Memory.find_cons, if_pos rfl, Memory.find_cons, if_neg hne,
            Memory.find_eq_none_of_above h'.1 hlt.le] at this
          exact absurd this (by simp)
        · have := hf a'
          rw [Memory.find_cons, if_neg (Ne.symm hne), Memory.find_cons, if_pos rfl,
            Memory.find_eq_none_of_above h.1 (by omega)] at this
          exact absurd this (by simp)
      subst haa
      have hbb : b = b' := by
        have := hf a
        simpa [Memory.find_cons] using this
      subst hbb
      congr 1
      refine ih h.2.2 h'.2.2 fun x => ?_
      by_cases hx : x = a
      · subst hx
        rw [Memory.find_eq_none_of_above h.1 le_rfl, Memory.find_eq_none_of_above h'.1 le_rfl]
      · simpa [Memory.find_cons, hx] using hf x

/-! ### Only buffer bytes are listed -/

@[simp] theorem Memory.inBuffers_nil (cap : Nat) : Memory.inBuffers cap [] = true := rfl

theorem Memory.inBuffers_cons (cap a : Nat) (b : Byte) (m : Memory) :
    Memory.inBuffers cap ((a, b) :: m) = true ↔ isBufferByte cap a = true ∧ m.inBuffers cap = true := by
  simp [Memory.inBuffers]

theorem Memory.inBuffers_write {m : Memory} {cap a : Nat} (b : Byte) (h : m.inBuffers cap = true)
    (ha : isBufferByte cap a = true) : (m.write a b).inBuffers cap = true := by
  have hins : (m.insertCell a b).inBuffers cap = true := by
    induction m with
    | nil => simp [Memory.insertCell, Memory.inBuffers, ha]
    | cons c m ih =>
      obtain ⟨a', b'⟩ := c
      rw [Memory.inBuffers_cons] at h
      rw [Memory.insertCell]
      split
      · simp [Memory.inBuffers_cons, ha, h]
      · split <;> simp [Memory.inBuffers_cons, ha, h, ih h.2]
  have hrem : (m.removeCell a).inBuffers cap = true := by
    clear hins
    induction m with
    | nil => rfl
    | cons c m ih =>
      obtain ⟨a', b'⟩ := c
      rw [Memory.inBuffers_cons] at h
      rw [Memory.removeCell]
      split
      · exact ih h.2
      · simp [Memory.inBuffers_cons, h, ih h.2]
  unfold Memory.write
  split
  · exact hrem
  · exact hins

theorem Memory.inBuffers_writeAll {m : Memory} {cap a : Nat} (bs : List Byte) (h : m.inBuffers cap = true)
    (ha : ∀ x, a ≤ x → x < a + bs.length → isBufferByte cap x = true) : (m.writeAll a bs).inBuffers cap = true := by
  induction bs generalizing m a with
  | nil => exact h
  | cons b bs ih =>
    refine ih (Memory.inBuffers_write b h (ha a le_rfl (by simp))) fun x hx hx' => ha x (by omega) ?_
    simp only [List.length_cons]
    omega

end Sys2Proof.Machine
end

