-- ==== Sys2Proof/Laws/Bytes.lean ====
section
/-! SUPPORT. The byte and word operations: their lengths and their elements. -/

namespace Sys2Proof.Machine

@[simp] theorem length_le64Put (w : Word) : (le64Put w).length = 8 := rfl

/-- Byte `m` of an encoded word is its bits `[8m+7:8m]`. -/
theorem byteAt_le64Put (w : Word) {m : Nat} (h : m < 8) : byteAt (le64Put w) m = w.extractLsb' (8 * m) 8 := by
  interval_cases m <;> rfl

theorem byteAt_of_le {b : List Byte} {i : Nat} (h : b.length ≤ i) : byteAt b i = 0#8 := by
  simp [byteAt, List.getD_eq_getElem?_getD, h]

theorem byteAt_append (a b : List Byte) (i : Nat) :
    byteAt (a ++ b) i = if i < a.length then byteAt a i else byteAt b (i - a.length) := by
  simp only [byteAt, List.getD_eq_getElem?_getD, List.getElem?_append]
  split <;> rfl

theorem byteAt_take (b : List Byte) (n i : Nat) : byteAt (b.take n) i = if i < n then byteAt b i else 0#8 := by
  simp only [byteAt, List.getD_eq_getElem?_getD, List.getElem?_take]
  split <;> rfl

theorem byteAt_drop (b : List Byte) (n i : Nat) : byteAt (b.drop n) i = byteAt b (n + i) := by
  simp [byteAt, List.getD_eq_getElem?_getD]

theorem byteAt_replicate (n : Nat) (v : Byte) (i : Nat) :
    byteAt (List.replicate n v) i = if i < n then v else 0#8 := by
  simp only [byteAt, List.getD_eq_getElem?_getD, List.getElem?_replicate]
  split <;> rfl

theorem byteAt_map_range (f : Nat → Byte) {n i : Nat} (h : i < n) : byteAt ((List.range n).map f) i = f i := by
  simp [byteAt, List.getD_eq_getElem?_getD, h]

/-- Two byte sequences of one length with the same bytes are equal. -/
theorem bytes_ext {a b : List Byte} (hl : a.length = b.length) (h : ∀ i, i < a.length → byteAt a i = byteAt b i) :
    a = b := by
  refine List.ext_getElem hl fun i hi hi' => ?_
  simpa [byteAt, List.getD_eq_getElem?_getD, hi, hi'] using h i hi

@[simp] theorem length_wordsOf (b : List Byte) (n : Nat) : (wordsOf b n).length = n := by
  simp [wordsOf]

theorem getElem?_wordsOf (b : List Byte) {n j : Nat} (h : j < n) : (wordsOf b n)[j]? = some (le64Get b (8 * j)) := by
  simp [wordsOf, h]

@[simp] theorem bytesOf_nil : bytesOf [] = [] := rfl

@[simp] theorem bytesOf_cons (w : Word) (ws : List Word) : bytesOf (w :: ws) = le64Put w ++ bytesOf ws := rfl

@[simp] theorem length_bytesOf (ws : List Word) : (bytesOf ws).length = 8 * ws.length := by
  induction ws with
  | nil => rfl
  | cons w ws ih => simp [ih]; omega

/-- Byte `8j + m` of the words' bytes is byte `m` of word `j`. -/
theorem byteAt_bytesOf (ws : List Word) {j m : Nat} (hm : m < 8) {w : Word} (hw : ws[j]? = some w) :
    byteAt (bytesOf ws) (8 * j + m) = byteAt (le64Put w) m := by
  induction ws generalizing j with
  | nil => simp at hw
  | cons v ws ih =>
    rw [bytesOf_cons, byteAt_append, length_le64Put]
    cases j with
    | zero =>
      have : v = w := by simpa using hw
      subst this
      rw [if_pos (by omega), Nat.mul_zero, Nat.zero_add]
    | succ j =>
      rw [if_neg (by omega), show 8 * (j + 1) + m - 8 = 8 * j + m by omega]
      exact ih (by simpa using hw)

end Sys2Proof.Machine
end

