-- ==== Sys2Proof/Laws/Transform.lean ====
section
/-! SUPPORT. The block transform and the padding codec: what one step does to one lane, and the lengths of everything. -/

namespace Sys2Proof.Machine

/-- Everything a pass over the lanes does: lane `j` gets the update of position `i + j`. -/
theorem getElem?_mapLanes (f : Nat → Word → Word) (i : Nat) (ws : List Word) (j : Nat) :
    (mapLanes f i ws)[j]? = (ws[j]?).map (f (i + j)) := by
  induction ws generalizing i j with
  | nil => simp [mapLanes]
  | cons w ws ih =>
    cases j with
    | zero => simp [mapLanes]
    | succ j => simp [mapLanes, ih, Nat.add_assoc, Nat.add_comm 1 j]

@[simp] theorem length_mapLanes (f : Nat → Word → Word) (i : Nat) (ws : List Word) :
    (mapLanes f i ws).length = ws.length := by
  induction ws generalizing i with
  | nil => rfl
  | cons w ws ih => simp [mapLanes, ih]

@[simp] theorem length_encStep (c : Context) (ws : List Word) (s : Nat) : (encStep c ws s).length = ws.length :=
  length_mapLanes ..

@[simp] theorem length_decStep (c : Context) (ws : List Word) (s : Nat) : (decStep c ws s).length = ws.length :=
  length_mapLanes ..

/-- A run of steps, each of which keeps the number of words, keeps it. -/
theorem length_foldl_steps {f : List Word → Nat → List Word} (h : ∀ ws s, (f ws s).length = ws.length)
    (ss : List Nat) (ws : List Word) : (ss.foldl f ws).length = ws.length := by
  induction ss generalizing ws with
  | nil => rfl
  | cons s ss ih => rw [List.foldl_cons, ih, h]

@[simp] theorem length_encBlock (c : Context) (ws : List Word) : (encBlock c ws).length = ws.length :=
  length_foldl_steps (length_encStep c) _ _

@[simp] theorem length_decBlock (c : Context) (ws : List Word) : (decBlock c ws).length = ws.length :=
  length_foldl_steps (length_decStep c) _ _

@[simp] theorem stepCount_eq : stepCount = 18 := rfl

@[simp] theorem length_encBlockBytes (c : Context) (blk : List Byte) : (encBlockBytes c blk).length = 8 * c.wc := by
  simp [encBlockBytes]

@[simp] theorem length_decBlockBytes (c : Context) (blk : List Byte) : (decBlockBytes c blk).length = 8 * c.wc := by
  simp [decBlockBytes]

/-! ### Blocks of a message -/

theorem length_mapBlocks {f : List Byte → List Byte} {size : Nat} (h : ∀ blk, (f blk).length = size) (n : Nat)
    (x : List Byte) : (mapBlocks f size n x).length = n * size := by
  induction n generalizing x with
  | zero => simp [mapBlocks]
  | succ n ih => simp [mapBlocks, h, ih]; ring

/-- Everything the pass over the blocks does: block `k` of the result is the byte form of block `k` of the input. -/
theorem block_mapBlocks {f : List Byte → List Byte} {size : Nat} (h : ∀ blk, (f blk).length = size) {n k : Nat}
    (hk : k < n) (x : List Byte) :
    ((mapBlocks f size n x).drop (size * k)).take size = f ((x.drop (size * k)).take size) := by
  induction n generalizing k x with
  | zero => omega
  | succ n ih =>
    rw [mapBlocks]
    cases k with
    | zero => simp [h]
    | succ k =>
      have hs : size * (k + 1) = (f (x.take size)).length + size * k := by rw [h]; ring
      rw [hs, List.drop_append, List.drop_of_length_le (by omega), List.nil_append,
        Nat.add_sub_cancel_left, ih (by omega), List.drop_drop, h]

/-! ### The codec -/

@[simp] theorem padLen_zero (b : Nat) : padLen 0 b = 0 := by
  simp [padLen]

@[simp] theorem length_ltPad (b : Nat) (m : List Byte) : (ltPad b m).length = m.length + padLen m.length b := by
  simp [ltPad]

@[simp] theorem length_zpPad (b : Nat) (m : List Byte) : (zpPad b m).length = m.length + padLen m.length b := by
  simp [zpPad]

/-- Everything the strip loop does: it stops at the last byte below `n` that is not 0x00. -/
theorem stripZeros_spec (x : List Byte) (n : Nat) :
    stripZeros x n ≤ n ∧ (∀ i, stripZeros x n ≤ i → i < n → byteAt x i = 0#8)
      ∧ (0 < stripZeros x n → byteAt x (stripZeros x n - 1) ≠ 0#8) := by
  induction n with
  | zero => exact ⟨le_rfl, fun i _ h => absurd h (by omega), fun h => absurd h (by simp [stripZeros])⟩
  | succ n ih =>
    rw [stripZeros]
    split
    · next hz =>
      refine ⟨by omega, fun i hi hi' => ?_, ih.2.2⟩
      rcases Nat.lt_succ_iff_lt_or_eq.mp hi' with h | h
      · exact ih.2.1 i hi h
      · exact h ▸ hz
    · next hz => exact ⟨le_rfl, fun i hi hi' => absurd hi (by omega), fun _ => hz⟩

/-- LT_UNPAD answers a whole number of leading bytes of its input. -/
theorem ltUnpad_ok {x z : List Byte} (h : ltUnpad x = .ok z) : ∃ n, n ≤ x.length ∧ z = x.take n := by
  unfold ltUnpad at h
  split at h
  · next hz =>
    have : x = [] := List.length_eq_zero_iff.mp hz
    exact ⟨0, by omega, by cases h; simp [this]⟩
  · split at h
    · cases h
    · exact ⟨_, Nat.sub_le .., by cases h; rfl⟩

/-- Whatever the mode, a message that is unframed is a whole number of leading bytes of the decrypted buffer. -/
theorem unframeMessage_ok {mode : PadMode} {b : Nat} {x z : List Byte} (h : unframeMessage mode b x = .ok z) :
    ∃ n, n ≤ x.length ∧ z = x.take n := by
  cases mode with
  | noPadding =>
    simp only [unframeMessage, noneUnpad] at h
    split at h
    · exact ⟨x.length, le_rfl, by cases h; simp⟩
    · cases h
  | lengthTag => exact ltUnpad_ok h
  | zeroPadding =>
    simp only [unframeMessage, zpUnpad] at h
    exact ⟨_, (stripZeros_spec x x.length).1, by cases h; rfl⟩

/-- Whatever the mode, a framed message has the padded length; mode None takes exactly one block. -/
theorem frameMessage_ok {mode : PadMode} {b : Nat} {m x : List Byte} (h : frameMessage mode b m = .ok x) :
    x.length = m.length + padLen m.length b ∧ (mode = .noPadding → m.length = b) := by
  cases mode with
  | noPadding =>
    simp only [frameMessage, nonePad] at h
    split at h
    · next hb =>
      cases h
      refine ⟨?_, fun _ => hb⟩
      simp [padLen, hb]
    · cases h
  | lengthTag => simp only [frameMessage] at h; cases h; simp
  | zeroPadding => simp only [frameMessage] at h; cases h; simp

end Sys2Proof.Machine
end

