-- ==== Sys2Proof/Laws/Commands.lean ====
section
/-! SUPPORT. What each command can do, said once: the results its checks allow and the next state of each. -/

namespace Sys2Proof.Machine

/-! ### Encodings -/

theorem isBlockBits_iff (n : Nat) : isBlockBits n = true ↔ n = 256 ∨ n = 512 ∨ n = 1024 := by
  simp [isBlockBits, or_assoc]

theorem isBlockBits_false_iff (n : Nat) : isBlockBits n = false ↔ ¬ (n = 256 ∨ n = 512 ∨ n = 1024) := by
  rw [← isBlockBits_iff, Bool.not_eq_true]

theorem PadMode.ofWord_code (m : PadMode) : PadMode.ofWord m.code = some m := by
  cases m <;> rfl

/-- A `PMODE` value encodes at most one mode, the one whose code it is. -/
theorem PadMode.ofWord_eq_some {w : Word} {m : PadMode} : PadMode.ofWord w = some m ↔ m.code = w := by
  constructor
  · intro h
    unfold PadMode.ofWord at h
    split at h
    · next hw => cases h; exact hw.symm
    · split at h
      · next hw => cases h; exact hw.symm
      · split at h
        · next hw => cases h; exact hw.symm
        · cases h
  · rintro rfl; exact PadMode.ofWord_code m

/-- A `PMODE` value encodes no mode exactly when it is above 2. -/
theorem PadMode.ofWord_eq_none {w : Word} : PadMode.ofWord w = none ↔ 2 < w.toNat := by
  unfold PadMode.ofWord
  constructor
  · intro h
    split at h
    · cases h
    · split at h
      · cases h
      · split at h
        · cases h
        · next h0 h1 h2 =>
          have e0 : w.toNat ≠ 0 := fun e => h0 (BitVec.eq_of_toNat_eq e)
          have e1 : w.toNat ≠ 1 := fun e => h1 (BitVec.eq_of_toNat_eq e)
          have e2 : w.toNat ≠ 2 := fun e => h2 (BitVec.eq_of_toNat_eq e)
          omega
  · intro h
    rw [if_neg, if_neg, if_neg] <;> rintro rfl <;> simp at h

/-! ### CONFIGURE -/

/-- The context CONFIGURE builds from staging that passes its checks. -/
def stagedContext (s : State) (mode : PadMode) : Context where
  valid := true
  bits := s.bsz.toNat
  wc := s.bsz.toNat / 8 / 8
  k := keySlots (wordsOf (s.keyBytes (s.bsz.toNat / 8)) (s.bsz.toNat / 8 / 8)
    ++ [parityWord (wordsOf (s.keyBytes (s.bsz.toNat / 8)) (s.bsz.toNat / 8 / 8))])
  t0 := le64Get s.tweakBytes 0
  t1 := le64Get s.tweakBytes 8
  pmode := mode

/-- Everything CONFIGURE's checks can answer: the four errors in their order, or the staged context. -/
theorem configureResult_eq (s : State) :
    configureResult s =
      if isBlockBits s.bsz.toNat = false then .error .invalidBlockSize
      else if s.keylen.toNat ≠ s.bsz.toNat / 8 then .error .invalidKeyLength
      else if s.twlen.toNat ≠ 16 then .error .invalidTweakLength
      else match PadMode.ofWord s.pmode with
        | none => .error .invalidPaddingMode
        | some mode => .ok (stagedContext s mode) := by
  unfold configureResult
  split
  · rfl
  · next hb =>
    have hlen : s.bsz.toNat / 8 = s.bsz.toNat / 8 / 8 * 8 := by
      have := (isBlockBits_iff s.bsz.toNat).mp (by simpa using hb)
      omega
    split
    · rfl
    · split
      · rfl
      · cases PadMode.ofWord s.pmode with
        | none => rfl
        | some mode => simp [keySchedule, tweakSchedule, ← hlen, stagedContext]

/-- CONFIGURE builds a context exactly from staging that passes the four checks. -/
theorem configureResult_ok {s : State} {c : Context} (h : configureResult s = .ok c) :
    isBlockBits s.bsz.toNat = true ∧ s.keylen.toNat = s.bsz.toNat / 8 ∧ s.twlen.toNat = 16
      ∧ ∃ mode, mode.code = s.pmode ∧ c = stagedContext s mode := by
  rw [configureResult_eq] at h
  split at h
  · cases h
  · next h1 =>
    split at h
    · cases h
    · next h2 =>
      split at h
      · cases h
      · next h3 =>
        split at h
        · cases h
        · next mode hm =>
          cases h
          exact ⟨by simpa using h1, not_not.mp h2, not_not.mp h3, mode, PadMode.ofWord_eq_some.mp hm, rfl⟩

theorem configureResult_of_checks {s : State} {mode : PadMode} (h1 : isBlockBits s.bsz.toNat = true)
    (h2 : s.keylen.toNat = s.bsz.toNat / 8) (h3 : s.twlen.toNat = 16) (h4 : mode.code = s.pmode) :
    configureResult s = .ok (stagedContext s mode) := by
  rw [configureResult_eq, if_neg (by simp [h1]), if_neg (not_not.mpr h2), if_neg (not_not.mpr h3),
    PadMode.ofWord_eq_some.mpr h4]

theorem configureResult_error {s : State} {e : ErrKind} (h : configureResult s = .error e) :
    e = .invalidBlockSize ∨ e = .invalidKeyLength ∨ e = .invalidTweakLength ∨ e = .invalidPaddingMode := by
  rw [configureResult_eq] at h
  split at h
  · cases h; simp
  · split at h
    · cases h; simp
    · split at h
      · cases h; simp
      · split at h
        · cases h; simp
        · cases h

/-- Everything CONFIGURE can do. -/
theorem execConfigure_cases (s : State) :
    (∃ e, configureResult s = .error e ∧ exec .configure s = .next (s.raise .configure e))
      ∨ ∃ c, configureResult s = .ok c ∧ exec .configure s = .next (s.setCtx c).succeed := by
  rcases h : configureResult s with e | c
  · exact .inl ⟨e, rfl, by simp [exec, execConfigure, h]⟩
  · exact .inr ⟨c, rfl, by simp [exec, execConfigure, h]⟩

/-! ### The checks ENCRYPT and DECRYPT share -/

/-- Everything the shared checks can answer, in their order. -/
theorem messageError_cases (s : State) :
    (s.ctx.valid = false ∧ messageError s = some .noContext)
      ∨ (s.ctx.valid = true ∧ s.dataBytes < s.len.toNat ∧ messageError s = some .capacityExceeded)
      ∨ (s.ctx.valid = true ∧ s.len.toNat ≤ s.dataBytes ∧ messageError s = none) := by
  unfold messageError
  cases hv : s.ctx.valid with
  | false => simp
  | true =>
    rcases Nat.lt_or_ge s.dataBytes s.len.toNat with h | h
    · exact .inr (.inl ⟨rfl, h, by simp only [Bool.true_eq_false, if_false]; rw [if_pos h]⟩)
    · exact .inr (.inr ⟨rfl, h, by simp only [Bool.true_eq_false, if_false]; rw [if_neg (by omega)]⟩)

/-! ### ENCRYPT -/

/-- The framing of a message fails only in mode None, on a length that is not one block. -/
theorem frameMessage_error {mode : PadMode} {b : Nat} {m : List Byte} {e : ErrKind}
    (h : frameMessage mode b m = .error e) : mode = .noPadding ∧ m.length ≠ b ∧ e = .invalidInputLength := by
  cases mode with
  | noPadding =>
    simp only [frameMessage, nonePad] at h
    split at h
    · cases h
    · next hb => cases h; exact ⟨rfl, hb, rfl⟩
  | lengthTag => simp [frameMessage] at h
  | zeroPadding => simp [frameMessage] at h

/-- Everything ENCRYPT's checks can answer. -/
theorem encryptResult_cases (s : State) :
    (∃ e, messageError s = some e ∧ encryptResult s = .error e)
      ∨ (s.ctx.valid = true ∧ s.len.toNat ≤ s.dataBytes ∧ s.ctx.pmode = .noPadding
          ∧ s.len.toNat ≠ s.ctx.blockBytes ∧ encryptResult s = .error .invalidInputLength)
      ∨ (s.ctx.valid = true ∧ s.len.toNat ≤ s.dataBytes ∧ (s.ctx.pmode = .noPadding → s.len.toNat = s.ctx.blockBytes)
          ∧ ∃ x, frameMessage s.ctx.pmode s.ctx.blockBytes (s.dataPrefix s.len.toNat) = .ok x
            ∧ encryptResult s = .ok (encBlocks s.ctx s.ctx.blockBytes x)) := by
  rcases messageError_cases s with ⟨_, h⟩ | ⟨_, _, h⟩ | ⟨hv, hl, h⟩
  · exact .inl ⟨_, h, by simp [encryptResult, h]⟩
  · exact .inl ⟨_, h, by simp [encryptResult, h]⟩
  · right
    rcases hf : frameMessage s.ctx.pmode s.ctx.blockBytes (s.dataPrefix s.len.toNat) with e | x
    · obtain ⟨hm, hb, rfl⟩ := frameMessage_error hf
      exact .inl ⟨hv, hl, hm, by simpa using hb, by simp [encryptResult, h, hf]⟩
    · exact .inr ⟨hv, hl, by simpa using (frameMessage_ok hf).2, x, rfl, by simp [encryptResult, h, hf]⟩

/-- Everything ENCRYPT can do. -/
theorem execEncrypt_cases (s : State) :
    (∃ e, encryptResult s = .error e ∧ exec .encrypt s = .next (s.raise .message e))
      ∨ ∃ y, encryptResult s = .ok y
          ∧ exec .encrypt s = .next ((s.writeBytes dataBase y).setOutlen y.length).succeed := by
  rcases h : encryptResult s with e | y
  · exact .inl ⟨e, rfl, by simp [exec, execEncrypt, h]⟩
  · exact .inr ⟨y, rfl, by simp [exec, execEncrypt, h]⟩

/-! ### DECRYPT -/

/-- DECRYPT's length rule (R181), as a proposition. -/
theorem decryptLengthOk_iff (c : Context) (n : Nat) :
    decryptLengthOk c n = true ↔ (c.pmode = .noPadding → n = c.blockBytes) ∧ n % c.blockBytes = 0 := by
  cases h : c.pmode <;> simp [decryptLengthOk, h]

/-- The unframing of a decrypted buffer of one block or of whole blocks fails only in LengthTagPadding. -/
theorem unframeMessage_error {mode : PadMode} {b : Nat} {x : List Byte} {e : ErrKind}
    (h : unframeMessage mode b x = .error e) (hb : mode = .noPadding → x.length = b) :
    mode = .lengthTag ∧ 0 < x.length ∧ x.length < (byteAt x (x.length - 1)).toNat ∧ e = .invalidPadding := by
  cases mode with
  | noPadding => simp [unframeMessage, noneUnpad, hb rfl] at h
  | lengthTag =>
    simp only [unframeMessage, ltUnpad] at h
    split at h
    · cases h
    · next hz =>
      split at h
      · next hp => cases h; exact ⟨rfl, by omega, hp, rfl⟩
      · cases h
  | zeroPadding => simp [unframeMessage] at h

/-- Everything DECRYPT's checks can answer. -/
theorem decryptResult_cases (s : State) :
    (∃ e, messageError s = some e ∧ decryptResult s = .error e)
      ∨ (s.ctx.valid = true ∧ s.len.toNat ≤ s.dataBytes ∧ decryptLengthOk s.ctx s.len.toNat = false
          ∧ decryptResult s = .error .invalidInputLength)
      ∨ (s.ctx.valid = true ∧ s.len.toNat ≤ s.dataBytes ∧ decryptLengthOk s.ctx s.len.toNat = true
          ∧ ∃ x, x = decBlocks s.ctx s.ctx.blockBytes (s.dataPrefix s.len.toNat)
            ∧ ((∃ e, unframeMessage s.ctx.pmode s.ctx.blockBytes x = .error e ∧ decryptResult s = .error e)
              ∨ ∃ z, unframeMessage s.ctx.pmode s.ctx.blockBytes x = .ok z ∧ decryptResult s = .ok (x, z))) := by
  rcases messageError_cases s with ⟨_, h⟩ | ⟨_, _, h⟩ | ⟨hv, hl, h⟩
  · exact .inl ⟨_, h, by simp [decryptResult, h]⟩
  · exact .inl ⟨_, h, by simp [decryptResult, h]⟩
  · right
    cases hd : decryptLengthOk s.ctx s.len.toNat with
    | false => exact .inl ⟨hv, hl, rfl, by simp [decryptResult, h, hd]⟩
    | true =>
      refine .inr ⟨hv, hl, rfl, _, rfl, ?_⟩
      rcases hu : unframeMessage s.ctx.pmode s.ctx.blockBytes
          (decBlocks s.ctx s.ctx.blockBytes (s.dataPrefix s.len.toNat)) with e | z
      · exact .inl ⟨e, rfl, by simp [decryptResult, h, hd, hu]⟩
      · exact .inr ⟨z, rfl, by simp [decryptResult, h, hd, hu]⟩

/-- Everything DECRYPT can do. -/
theorem execDecrypt_cases (s : State) :
    (∃ e, decryptResult s = .error e ∧ exec .decrypt s = .next (s.raise .message e))
      ∨ ∃ x z, decryptResult s = .ok (x, z)
          ∧ exec .decrypt s = .next ((s.writeBytes dataBase x).setOutlen z.length).succeed := by
  rcases h : decryptResult s with e | ⟨x, z⟩
  · exact .inl ⟨e, rfl, by simp [exec, execDecrypt, h]⟩
  · exact .inr ⟨x, z, rfl, by simp [exec, execDecrypt, h]⟩

/-- No command touches the reset input, the parameters, the draw of `DATA` or the host's own record. -/
theorem exec_hostSide {i : Instr} {s t : State} (h : exec i s = .next t) :
    t.resetAsserted = s.resetAsserted ∧ t.params = s.params ∧ t.draw = s.draw ∧ t.pending = s.pending
      ∧ t.replies = s.replies := by
  cases i
  · rcases execConfigure_cases s with ⟨e, _, h'⟩ | ⟨c, _, h'⟩ <;> rw [h] at h' <;> cases h' <;> exact ⟨rfl, rfl, rfl, rfl, rfl⟩
  · rcases execEncrypt_cases s with ⟨e, _, h'⟩ | ⟨y, _, h'⟩ <;> rw [h] at h' <;> cases h' <;> exact ⟨rfl, rfl, rfl, rfl, rfl⟩
  · rcases execDecrypt_cases s with ⟨e, _, h'⟩ | ⟨x, z, _, h'⟩ <;> rw [h] at h' <;> cases h' <;>
      exact ⟨rfl, rfl, rfl, rfl, rfl⟩

end Sys2Proof.Machine
end

