-- ==== Sys2Proof/Laws/Bus.lean ====
section
/-! SUPPORT. The host port: where an offset leads, and everything one access, one event and one step can do. -/

namespace Sys2Proof.Machine

theorem Config_dataBytes_pos (p : Config.Params) : 128 ≤ p.dataBytes := by
  unfold Config.Params.dataBytes
  omega

theorem Config_dataBytes_dvd (p : Config.Params) : p.dataBytes % 128 = 0 := by
  unfold Config.Params.dataBytes
  omega

theorem Config_dataBytes_le (p : Config.Params) : p.dataBytes ≤ 2 ^ 32 - 0x1000 := by
  have := p.dataUnits.isLt
  unfold Config.Params.dataBytes
  omega

/-! ### The register map -/

/-- A row that is found is one of the rows, or the offset has none and is reserved. -/
theorem findRegister_mem (rows : List (Nat × Location)) (off : Nat) :
    (off, findRegister rows off) ∈ rows ∨ findRegister rows off = .reserved := by
  induction rows with
  | nil => exact .inr rfl
  | cons r rows ih =>
    obtain ⟨o, l⟩ := r
    rw [findRegister]
    split
    · next h => subst h; exact .inl List.mem_cons_self
    · exact ih.imp (List.mem_cons_of_mem _) id

theorem registerAt_mem (off : Nat) : (off, registerAt off) ∈ registerMap ∨ registerAt off = .reserved :=
  findRegister_mem registerMap off

theorem registerAt_cmd_iff (off : Nat) : registerAt off = .cmd ↔ off = 0 := by
  constructor
  · intro h
    rcases registerAt_mem off with hm | hm
    · rw [h] at hm; simpa [registerMap] using hm
    · rw [h] at hm; cases hm
  · rintro rfl; rfl

/-- No register stands where a buffer does, or beyond `DATA`. -/
theorem registerAt_ne (off : Nat) :
    (∀ a, registerAt off ≠ .keybuf a) ∧ (∀ a, registerAt off ≠ .twbuf a) ∧ (∀ a, registerAt off ≠ .data a)
      ∧ registerAt off ≠ .outside := by
  have key : ∀ l, (∀ o, (o, l) ∉ registerMap) → l ≠ .reserved → registerAt off ≠ l := by
    intro l hl hr h
    rcases registerAt_mem off with hm | hm
    · exact hl off (h ▸ hm)
    · exact hr (h ▸ hm)
  exact ⟨fun a => key _ (by simp [registerMap]) (by simp), fun a => key _ (by simp [registerMap]) (by simp),
    fun a => key _ (by simp [registerMap]) (by simp), key _ (by simp [registerMap]) (by simp)⟩

/-- The five ranges of the register map. -/
theorem locate_cases (cap off : Nat) :
    (off < 0x100 ∧ locate cap off = registerAt off)
      ∨ (0x100 ≤ off ∧ off < 0x180 ∧ locate cap off = .keybuf off)
      ∨ (0x180 ≤ off ∧ off < 0x190 ∧ locate cap off = .twbuf off)
      ∨ (0x190 ≤ off ∧ off < 0x1000 ∧ locate cap off = .reserved)
      ∨ (0x1000 ≤ off ∧ off < 0x1000 + cap ∧ locate cap off = .data off)
      ∨ (0x1000 + cap ≤ off ∧ locate cap off = .outside) := by
  unfold locate keybufBase twbufBase dataBase
  by_cases h1 : off < 0x100
  · exact .inl ⟨h1, by simp [h1]⟩
  right
  by_cases h2 : off < 0x180
  · exact .inl ⟨by omega, h2, by rw [if_neg h1, if_pos (by omega)]⟩
  right
  by_cases h3 : off < 0x190
  · exact .inl ⟨by omega, h3, by rw [if_neg h1, if_neg (by omega), if_pos (by omega)]⟩
  right
  by_cases h4 : off < 0x1000
  · exact .inl ⟨by omega, h4, by rw [if_neg h1, if_neg (by omega), if_neg (by omega), if_pos h4]⟩
  right
  by_cases h5 : off < 0x1000 + cap
  · exact .inl ⟨by omega, h5, by
      rw [if_neg h1, if_neg (by omega), if_neg (by omega), if_neg h4, if_pos h5]⟩
  · exact .inr ⟨by omega, by
      rw [if_neg h1, if_neg (by omega), if_neg (by omega), if_neg h4, if_neg h5]⟩

theorem locate_cmd_iff (cap off : Nat) : locate cap off = .cmd ↔ off = 0 := by
  constructor
  · intro h
    rcases locate_cases cap off with ⟨_, e⟩ | ⟨_, _, e⟩ | ⟨_, _, e⟩ | ⟨_, _, e⟩ | ⟨_, _, e⟩ | ⟨_, e⟩ <;> rw [h] at e
    · exact (registerAt_cmd_iff off).mp e.symm
    all_goals cases e
  · rintro rfl; rfl

/-! ### Accesses -/

/-- A location that is not a register's own storage: a buffer word, with the bytes of `off` up to `off + 8` in the
buffer. -/
theorem locate_buffer {cap off a : Nat} (hc : cap % 128 = 0) (ho : off % 8 = 0)
    (h : locate cap off = .keybuf a ∨ locate cap off = .twbuf a ∨ locate cap off = .data a) :
    a = off ∧ ∀ x, off ≤ x → x < off + 8 → isBufferByte cap x = true := by
  have hreg := registerAt_ne off
  have hbuf : ∀ x, ((0x100 ≤ x ∧ x < 0x180) ∨ (0x180 ≤ x ∧ x < 0x190) ∨ (0x1000 ≤ x ∧ x < 0x1000 + cap)) →
      isBufferByte cap x = true := by
    intro x hx
    simp only [isBufferByte, Bool.or_eq_true, Bool.and_eq_true, decide_eq_true_eq]
    simp only [keybufBase, twbufBase, dataBase]
    omega
  rcases locate_cases cap off with ⟨_, e⟩ | ⟨_, _, e⟩ | ⟨_, _, e⟩ | ⟨_, _, e⟩ | ⟨_, _, e⟩ | ⟨_, e⟩ <;> rw [e] at h
  · exact absurd h (by simp [hreg.1, hreg.2.1, hreg.2.2.1])
  · exact ⟨by simpa [eq_comm] using h, fun x _ _ => hbuf x (by omega)⟩
  · exact ⟨by simpa [eq_comm] using h, fun x _ _ => hbuf x (by omega)⟩
  · simp at h
  · exact ⟨by simpa [eq_comm] using h, fun x _ _ => hbuf x (by omega)⟩
  · simp at h

/-- Everything a completed write can do. -/
theorem writeLocation_next {s t : State} {l : Location} {v : Word} (h : writeLocation s l v = .next t) :
    (l = .cmd ∧ ((∃ i, decode v = .command i ∧ exec i s = .next t)
        ∨ (decode v = .illegalCommand ∧ t = s.setErr 8#8)))
      ∨ (∃ bsz pmode keylen twlen len, t = { s with bsz, pmode, keylen, twlen, len })
      ∨ (∃ a, (l = .keybuf a ∨ l = .twbuf a ∨ l = .data a) ∧ t = s.writeWord a v) := by
  cases l <;> simp only [writeLocation] at h
  case cmd =>
    refine .inl ⟨rfl, ?_⟩
    unfold runWord at h
    split at h
    · next i hi => exact .inl ⟨i, hi, h⟩
    · next hi => exact .inr ⟨hi, by simpa [illegalWord, State.raise, ErrKind.code, eq_comm] using h⟩
  case keybuf a => exact .inr (.inr ⟨a, .inl rfl, by simpa [eq_comm] using h⟩)
  case twbuf a => exact .inr (.inr ⟨a, .inr (.inl rfl), by simpa [eq_comm] using h⟩)
  case data a => exact .inr (.inr ⟨a, .inr (.inr rfl), by simpa [eq_comm] using h⟩)
  case reserved => simp at h
  case outside => simp at h
  all_goals
    simp only [Host.Outcome.next.injEq] at h
    subst h
    exact .inr (.inl ⟨_, _, _, _, _, rfl⟩)

/-- Everything a completed access can do. -/
theorem performAccess_next {s t : State} {a : Access} (h : performAccess s a = .next t) :
    a.width = 64 ∧ a.off.toNat % 8 = 0
      ∧ ((a.op = .read ∧ ∃ w, readLocation s (locate s.dataBytes a.off.toNat) = some w ∧ t = s.reply w)
        ∨ ∃ v, a.op = .write v ∧ writeLocation s (locate s.dataBytes a.off.toNat) v = .next t) := by
  unfold performAccess at h
  split at h
  · cases h
  · next hw =>
    have hwf : a.width = 64 ∧ a.off.toNat % 8 = 0 := by simpa [Access.wellFormed] using hw
    refine ⟨hwf.1, hwf.2, ?_⟩
    split at h
    · next hop =>
      split at h
      · next w hr => exact .inl ⟨hop, w, hr, by simpa [eq_comm] using h⟩
      · cases h
    · next v hop => exact .inr ⟨v, hop, h⟩

/-- A read completes exactly where the register map has a location the engine does not refuse. -/
theorem readLocation_isSome (s : State) (l : Location) :
    (∃ w, readLocation s l = some w) ↔ l ≠ .reserved ∧ l ≠ .outside := by
  cases l <;> simp [readLocation]

/-! ### Steps -/

@[simp] theorem w64_eq (off : Nat) (v : Word) : w64 off v = .access ⟨BitVec.ofNat 32 off, 64, .write v⟩ := rfl

@[simp] theorem r64_eq (off : Nat) : r64 off = .access ⟨BitVec.ofNat 32 off, 64, .read⟩ := rfl

theorem step_idle {s : State} (h : s.pending = []) : step s = .next s := by
  simp [step, serveHost, h]

theorem step_event {s : State} {e : HostEvent} {rest : List HostEvent} (h : s.pending = e :: rest) :
    step s = performEvent (s.setPending rest) e := by
  simp [step, serveHost, h]

/-- An access that is not a multiple of 8 or not 64 bits wide is a BusError. -/
theorem performAccess_malformed {s : State} {a : Access} (h : a.wellFormed = false) :
    performAccess s a = .fault .busError := by
  simp [performAccess, h]

theorem performAccess_read {s : State} {a : Access} (h : a.wellFormed = true) (hop : a.op = .read) :
    performAccess s a =
      match readLocation s (locate s.dataBytes a.off.toNat) with
      | some w => .next (s.reply w)
      | none => .fault .busError := by
  cases hr : readLocation s (locate s.dataBytes a.off.toNat) <;> simp [performAccess, h, hop, hr]

theorem performAccess_write {s : State} {a : Access} {v : Word} (h : a.wellFormed = true) (hop : a.op = .write v) :
    performAccess s a = writeLocation s (locate s.dataBytes a.off.toNat) v := by
  simp [performAccess, h, hop]

/-- No access touches the reset input, the parameters, the draw of `DATA` or the events to come; a write gives the host
no data, a read gives it one word. -/
theorem performAccess_hostSide {s t : State} {a : Access} (h : performAccess s a = .next t) :
    t.resetAsserted = s.resetAsserted ∧ t.params = s.params ∧ t.draw = s.draw ∧ t.pending = s.pending
      ∧ ((∃ v, a.op = .write v) → t.replies = s.replies) := by
  obtain ⟨_, _, ⟨hop, w, _, rfl⟩ | ⟨v, _, hw⟩⟩ := performAccess_next h
  · exact ⟨rfl, rfl, rfl, rfl, fun ⟨v, hv⟩ => by rw [hop] at hv; cases hv⟩
  · rcases writeLocation_next hw with ⟨_, ⟨i, _, he⟩ | ⟨_, rfl⟩⟩ | ⟨_, _, _, _, _, rfl⟩ | ⟨_, _, rfl⟩
    · obtain ⟨h1, h2, h3, h4, h5⟩ := exec_hostSide he
      exact ⟨h1, h2, h3, h4, fun _ => h5⟩
    all_goals exact ⟨rfl, rfl, rfl, rfl, fun _ => rfl⟩

theorem holdOutcome_next {o : Host.Outcome State Fault Refusal} {t : State} :
    holdOutcome o = .next t ↔ ∃ u, o = .next u ∧ t = u.holdReset := by
  cases o <;> simp [holdOutcome, eq_comm]

/-- While reset is released, a step on an access is the access. -/
theorem step_access {s : State} {a : Access} {rest : List HostEvent} (hr : s.resetAsserted = false)
    (h : s.pending = .access a :: rest) : step s = performAccess (s.setPending rest) a := by
  rw [step_event h, performEvent]
  cases hp : performAccess (s.setPending rest) a with
  | next u =>
    have hu : u.resetAsserted = false := (performAccess_hostSide hp).1.trans hr
    rw [holdOutcome, State.holdReset_of_released hu]
  | fault f => rfl
  | refused r => rfl

/-- While reset is asserted, an access that completes leaves the reset values, and its data to the host. -/
theorem step_access_asserted {s u : State} {a : Access} {rest : List HostEvent} (hr : s.resetAsserted = true)
    (h : s.pending = .access a :: rest) (hp : performAccess (s.setPending rest) a = .next u) :
    step s = .next { State.resetWith s.params (s.draw + 1) with
      resetAsserted := true, pending := rest, replies := u.replies } := by
  obtain ⟨h1, h2, h3, h4, _⟩ := performAccess_hostSide hp
  rw [step_event h, performEvent, hp, holdOutcome, State.holdReset_of_asserted (h1.trans hr), State.takeReset, h1, h2, h3,
    h4, State.setPending_resetAsserted, hr]
  rfl

/-- An access that faults does so whatever the level of the reset input. -/
theorem step_access_fault {s : State} {a : Access} {rest : List HostEvent} {f : Fault}
    (h : s.pending = .access a :: rest) (hp : performAccess (s.setPending rest) a = .fault f) : step s = .fault f := by
  rw [step_event h, performEvent, hp, holdOutcome]

theorem step_resetInput {s : State} {l : Bool} {rest : List HostEvent} (h : s.pending = .resetInput l :: rest) :
    step s = .next ((s.setPending rest).driveReset l) := by
  rw [step_event h, performEvent]

/-- Everything a completed step can do. -/
theorem step_next {s t : State} (h : step s = .next t) :
    (s.pending = [] ∧ t = s)
      ∨ ∃ e rest, s.pending = e :: rest
          ∧ ((∃ l, e = .resetInput l ∧ t = (s.setPending rest).driveReset l)
            ∨ ∃ a u, e = .access a ∧ performAccess (s.setPending rest) a = .next u ∧ t = u.holdReset) := by
  rcases hp : s.pending with _ | ⟨e, rest⟩
  · exact .inl ⟨rfl, by rw [step_idle hp] at h; simpa [eq_comm] using h⟩
  · refine .inr ⟨e, rest, rfl, ?_⟩
    rw [step_event hp] at h
    cases e with
    | access a =>
      obtain ⟨u, hu, rfl⟩ := holdOutcome_next.mp h
      exact .inr ⟨a, u, rfl, hu, rfl⟩
    | resetInput l => exact .inl ⟨l, rfl, by simpa [performEvent, eq_comm] using h⟩

end Sys2Proof.Machine
end

