-- ==== Sys2Proof/Laws/PerInstr.lean ====
section
/-! SUPPORT. The per-instruction laws: one lemma per constructor of `Instr`. -/

namespace Sys2Proof.Laws

/-- The encoded word of a well-formed command has the fields of 30_encoding.md R70: an `OPC` in bits [7:0] that names a
command, and 0 in bits [63:8]. -/
def EncodedWordShape.Statement (i : Instr) : Prop :=
  i.wellFormed = true →
    wordWellFormed (encode i) = true ∧ (encode i).extractLsb' 8 56 = 0#56 ∧ (encode i).extractLsb' 0 8 ≠ 0#8

theorem EncodedWordShape.configure : EncodedWordShape.Statement .configure := by
  unfold EncodedWordShape.Statement; decide

theorem EncodedWordShape.encrypt : EncodedWordShape.Statement .encrypt := by
  unfold EncodedWordShape.Statement; decide

theorem EncodedWordShape.decrypt : EncodedWordShape.Statement .decrypt := by
  unfold EncodedWordShape.Statement; decide

end Sys2Proof.Laws
end

