-- ==== Sys2Proof/Machine/HostScript.lean ====
section
/-! DEFINITION. The host-script notation (30_encoding.md R79, R80): its lines as the host events they stand for. -/

namespace Sys2Proof.Machine

/-- The pseudo-instruction of a command: a `W64` of its word to `CMD` (R80). -/
def script (i : Instr) : List HostEvent := [w64 0x000 (encode i)]

/-- `WBYTES base, b`: the bytes of `b` as little-endian words, the last padded with 0x00 (R80). -/
def scriptBytes (base : Nat) (b : List Byte) : List HostEvent :=
  (List.range ((b.length + 7) / 8)).map fun j =>
    w64 (base + 8 * j) (le64Get (b ++ List.replicate (8 * ((b.length + 7) / 8) - b.length) 0#8) (8 * j))

/-- `WZERO base, n`, for `n` a multiple of 8: `n / 8` words of 0 (R80). -/
def scriptZeros (base n : Nat) : List HostEvent :=
  (List.range (n / 8)).map fun j => w64 (base + 8 * j) 0#64

end Sys2Proof.Machine
end

