-- ==== Sys2Proof/Tests/Slice0.lean ====
section
/-! SUPPORT. The tests: the words of the opcode table, the checks of well-formedness, values of 95_test_vectors.md, and for
every statement with hypotheses a concrete state and operands that meet them. -/

namespace Sys2Proof.Tests

open Sys2Proof Sys2Proof.Machine

/-! ### Helpers -/

/-- Key `KA` of 95_test_vectors.md. -/
def keyA : List Word := [0x0123456789ABCDEF#64, 0x0FEDCBA987654321#64, 0x31404F5E6D7C8B9A#64, 0xBAC9D8E7F7061523#64]

/-- Tweak `TA` of 95_test_vectors.md. -/
def tweakA : List Word := [0x243F6A8885A308D3#64, 0x13198A2E03707344#64]

/-- Staging registers and buffers, after a reset. -/
def staged (bits keylen twlen pmode : Nat) : State :=
  ({ State.reset with
      bsz := BitVec.ofNat 64 bits, keylen := BitVec.ofNat 64 keylen, twlen := BitVec.ofNat 64 twlen,
      pmode := BitVec.ofNat 64 pmode }.writeBytes keybufBase (bytesOf keyA)).writeBytes twbufBase (bytesOf tweakA)

/-- The 256-bit context of `KA` and `TA`, its parity word from V4. -/
def contextA (mode : PadMode) : Context where
  valid := true
  bits := 256
  wc := 4
  k := keySlots (keyA ++ [0x9E9602AD3D480A55#64])
  t0 := 0x243F6A8885A308D3#64
  t1 := 0x13198A2E03707344#64
  pmode := mode

/-- The 256-bit context of a zero key and tweak words `t0`, `t1`; with a zero tweak its transform is the identity (R131). -/
def zeroKey (mode : PadMode) (t0 t1 : Word) : Context where
  valid := true
  bits := 256
  wc := 4
  k := keySlots [0#64, 0#64, 0#64, 0#64, 0x1BD11BDAA9FC1A22#64]
  t0 := t0
  t1 := t1
  pmode := mode

/-- A context, a message length, and the first bytes of `DATA`. -/
def message (c : Context) (n : Nat) (data : List Byte) : State :=
  { State.reset with ctx := c, len := BitVec.ofNat 64 n }.writeBytes dataBase data

/-- `n` bytes 0x00, the last of them replaced by `v`. -/
def zerosThen (n : Nat) (v : Byte) : List Byte := List.replicate (n - 1) 0#8 ++ [v]

/-- A state whose host has one event to come. -/
def facing (e : HostEvent) (s : State) : State := s.setPending [e]

/-- The engine while its reset input is asserted. -/
def heldInReset : State := { State.reset with resetAsserted := true }

/-- A 64-bit access. -/
def access64 (off : Nat) (op : BusOp) : Access := ⟨BitVec.ofNat 32 off, 64, op⟩

/-- The outcome is a next state with a property. -/
def nextHas (o : Host.Outcome State Fault Refusal) (p : State → Bool) : Bool :=
  match o with
  | .next t => p t
  | .fault _ => false
  | .refused _ => false

theorem nextHas_exists {o : Host.Outcome State Fault Refusal} {p : State → Bool} (h : nextHas o p = true) :
    ∃ t, o = .next t ∧ p t = true := by
  cases o with
  | next t => exact ⟨t, rfl, h⟩
  | fault _ => cases h
  | refused _ => cases h

/-! ### Well-formedness: a word each check refuses -/

theorem test_opc_zero_ill_formed : opcWellFormed 0x0000000000000000#64 = false := by decide
theorem test_opc_four_ill_formed : wordWellFormed 0x0000000000000004#64 = false := by decide
theorem test_zero_field_ill_formed : zeroWellFormed 0x0000000000000101#64 = false := by decide
theorem test_zero_field_top_bit_ill_formed : wordWellFormed 0x8000000000000001#64 = false := by decide
theorem test_access_of_32_bits_ill_formed : Access.wellFormed ⟨0x008#32, 32, .read⟩ = false := by decide
theorem test_access_misaligned_ill_formed : Access.wellFormed ⟨0x004#32, 64, .read⟩ = false := by decide

/-! ### Decoding: the words of R71 bit by bit, and the words of R190 -/

theorem test_decode_configure :
    decode 0b0000000000000000000000000000000000000000000000000000000000000001#64 = .command .configure := by decide
theorem test_decode_encrypt :
    decode 0b0000000000000000000000000000000000000000000000000000000000000010#64 = .command .encrypt := by decide
theorem test_decode_decrypt :
    decode 0b0000000000000000000000000000000000000000000000000000000000000011#64 = .command .decrypt := by decide
theorem test_decode_illegal : decode 0x0000000000000004#64 = .illegalCommand := by decide
theorem test_decode_illegal_high_bits : decode 0x0000000000000101#64 = .illegalCommand := by decide
theorem test_decodeTableWord : decodeTableWord 64 1 = some .configure ∧ decodeTableWord 64 2 = some .encrypt
    ∧ decodeTableWord 64 3 = some .decrypt ∧ decodeTableWord 64 0 = none := by decide

/-- The first step after `withFetchWord` runs the command: reset holds no context, so NoContext (V13). -/
theorem test_withFetchWord_runs_encrypt :
    step (State.reset.withFetchWord 64 2) = .next { State.reset with outlen := 0#64, err := 6#8 } := by rfl

/-! ### Values of 95_test_vectors.md -/

/-- V3. -/
theorem test_rotl64 : rotl64 0x0123456789ABCDEF#64 63 = 0x8091A2B3C4D5E6F7#64
    ∧ rotl64 0x0123456789ABCDEF#64 4 = 0x123456789ABCDEF0#64 := by decide
/-- V3. -/
theorem test_rotr64 : rotr64 0x0123456789ABCDEF#64 4 = 0xF0123456789ABCDE#64
    ∧ rotr64 0x0123456789ABCDEF#64 0 = 0x0123456789ABCDEF#64 := by decide
/-- V3. -/
theorem test_le64Get :
    le64Get [0x01#8, 0x02#8, 0x03#8, 0x04#8, 0x05#8, 0x06#8, 0x07#8, 0x08#8] 0 = 0x0807060504030201#64 := by decide
/-- V5: the amounts of `TA` are 19, 4, 23. -/
theorem test_amounts : [0, 1, 2, 3, 16, 17].map (contextA .noPadding).amt = [19, 4, 23, 19, 4, 23] := by decide +kernel
/-- V6: the state after step 0, and the whole transform. -/
theorem test_encStep : encStep (contextA .noPadding) [0x1#64, 0#64, 0#64, 0x8000000000000000#64] 0
    = [0x2B3C4D5E6F70091A#64, 0x5D4C3B2A19087F6E#64, 0x7AF36BE45CD18A02#64, 0xC73FB830A919D64E#64] := by decide +kernel
/-- V6. -/
theorem test_encBlock : encBlock (contextA .noPadding) [0x1#64, 0#64, 0#64, 0x8000000000000000#64]
    = [0xED2E1D8C4794B726#64, 0x6ED2E1D8C4784B72#64, 0x9C66C5032E221937#64, 0x285A742A199CC13A#64] := by decide +kernel
/-- V6. -/
theorem test_decBlock :
    decBlock (contextA .noPadding)
        [0xED2E1D8C4794B726#64, 0x6ED2E1D8C4784B72#64, 0x9C66C5032E221937#64, 0x285A742A199CC13A#64]
      = [0x1#64, 0#64, 0#64, 0x8000000000000000#64] := by decide +kernel
/-- V8: zero key, `S_0 = 12`. -/
theorem test_encBlock_zero_key :
    encBlock (zeroKey .noPadding 1#64 0#64) [0x1#64, 0x2#64, 0x3#64, 0x8000000000000000#64]
      = [0x1000#64, 0x2000#64, 0x3000#64, 0x800#64] := by decide +kernel
/-- V10. -/
theorem test_padLen : padLen 0 32 = 0 ∧ padLen 33 32 = 31 ∧ padLen 128 128 = 0 ∧ padLen 200 128 = 56 := by decide
/-- V11: `AA BB 00` gets 29 bytes 0x1D. -/
theorem test_ltPad : ltPad 32 [0xAA#8, 0xBB#8, 0x00#8] = [0xAA#8, 0xBB#8, 0x00#8] ++ List.replicate 29 0x1D#8 := by
  decide +kernel
/-- V12: last byte 0x20 of 32 bytes leaves nothing, 0x21 is InvalidPadding. -/
theorem test_ltUnpad : (ltUnpad (zerosThen 32 0x20#8)).toOption = some []
    ∧ (ltUnpad (zerosThen 32 0x21#8)).toOption = none := by decide +kernel
/-- V12: the strip crosses block boundaries. -/
theorem test_zpUnpad : zpUnpad ([0xAA#8, 0xBB#8] ++ List.replicate 62 0#8) = [0xAA#8, 0xBB#8] := by decide +kernel

/-- P2: CONFIGURE with `KA`, `TA`; the parity word is V4's. -/
theorem test_configure :
    nextHas (exec .configure (staged 256 32 16 1)) (fun t => decide (t.ctx = contextA .lengthTag ∧ t.err = 0#8)) = true := by
  decide +kernel
/-- V13: a wrong key length comes before a wrong tweak length and padding mode. -/
theorem test_configure_first_error :
    exec .configure (staged 256 31 15 3) = .next { staged 256 31 15 3 with err := 2#8 } := by rfl
/-- The example of R170: `hello` in LengthTagPadding. -/
theorem test_encrypt :
    nextHas (exec .encrypt (message (contextA .lengthTag) 5 [0x68#8, 0x65#8, 0x6C#8, 0x6C#8, 0x6F#8]))
      (fun t => decide (t.outlen = 32#64 ∧ t.readWord 0x1000 = 0x5BD8DB4A11050697#64
        ∧ t.readWord 0x1018 = 0x99EBC59BA825708B#64)) = true := by decide +kernel
/-- V13: CapacityExceeded comes before InvalidInputLength. -/
theorem test_encrypt_capacity :
    exec .encrypt (message (contextA .noPadding) 4097 [])
      = .next { message (contextA .noPadding) 4097 [] with outlen := 0#64, err := 7#8 } := by rfl
/-- The example of R180: back to `hello` and 27 bytes 0x1B. -/
theorem test_decrypt :
    nextHas (exec .decrypt (message (contextA .lengthTag) 32
        (bytesOf [0x5BD8DB4A11050697#64, 0xDF63506975C9FAC3#64, 0x2DD774B29F93A886#64, 0x99EBC59BA825708B#64])))
      (fun t => decide (t.outlen = 5#64 ∧ t.readWord 0x1000 = 0x1B1B1B6F6C6C6568#64 ∧ t.err = 0#8)) = true := by
  decide +kernel
/-- P4: a last byte 0x40 over 32 bytes is InvalidPadding, and `DATA` keeps the ciphertext. -/
theorem test_decrypt_invalid_padding :
    nextHas (exec .decrypt (message (zeroKey .lengthTag 0#64 0#64) 32 (zerosThen 32 0x40#8)))
      (fun t => decide (t.err = 5#8 ∧ t.outlen = 0#64 ∧ t.readWord 0x1018 = 0x4000000000000000#64)) = true := by
  decide +kernel
/-- V14: a write of `KEYBUF` is stored, and it reads 0. -/
theorem test_keybuf_reads_zero :
    nextHas (Sys2Proof.core.run 2 (State.reset.setPending [w64 0x100 0x0123456789ABCDEF#64, r64 0x100]))
      (fun t => decide (t.readByte 0x100 = 0xEF#8 ∧ t.readByte 0x107 = 0x01#8 ∧ t.replies = [0#64])) = true := by
  decide +kernel
/-- V14: `TWBUF` is read-write. -/
theorem test_twbuf_is_read_write :
    nextHas (Sys2Proof.core.run 2 (State.reset.setPending [w64 0x188 0x13198A2E03707344#64, r64 0x188]))
      (fun t => decide (t.replies = [0x13198A2E03707344#64])) = true := by decide +kernel
/-- R80: `WBYTES DATA, AA BB 00` is one word write (P3). -/
theorem test_script_bytes : scriptBytes 0x1000 [0xAA#8, 0xBB#8, 0x00#8] = [w64 0x1000 0x000000000000BBAA#64] := by
  decide +kernel

/-! ### The hypotheses of the statements are met: decoding and the host port -/

theorem test_meets_DecodeEncodeRoundTrip :
    Instr.configure.wellFormed = true ∧ Instr.encrypt.wellFormed = true ∧ Instr.decrypt.wellFormed = true := by decide

theorem test_meets_StepRunsDecodedCommand :
    (facing (w64 0x000 2#64) State.reset).pending = w64 0x000 2#64 :: [] ∧ decode 2#64 = .command .encrypt
      ∧ (facing (w64 0x000 2#64) State.reset).resetAsserted = false
      ∧ (facing (w64 0x000 2#64) heldInReset).resetAsserted = true := ⟨rfl, by decide, rfl, rfl⟩

theorem test_meets_IllegalWordOnlyWritesErr :
    (facing (w64 0x000 4#64) State.reset).pending = w64 0x000 4#64 :: [] ∧ decode 4#64 = .illegalCommand
      ∧ (facing (w64 0x000 4#64) State.reset).resetAsserted = false
      ∧ (facing (w64 0x000 0x04#64) (message (contextA .noPadding) 0 [])).ctx.valid = true
      ∧ (facing (w64 0x000 0x04#64) (message (contextA .noPadding) 0 [])).resetAsserted = false
      ∧ (facing (w64 0x000 0x04#64) (message (contextA .noPadding) 0 [])).pending = w64 0x000 0x04#64 :: [] :=
  ⟨rfl, by decide, rfl, rfl, rfl, rfl⟩

theorem test_meets_MalformedAccessIsBusError :
    (facing (.access ⟨0x008#32, 32, .read⟩) State.reset).pending = .access ⟨0x008#32, 32, .read⟩ :: []
      ∧ (Access.mk 0x008#32 32 .read).width ≠ 64
      ∧ (facing (.access ⟨0x00F#32, 64, .read⟩) State.reset).pending = .access ⟨0x00F#32, 64, .read⟩ :: []
      ∧ (Access.mk 0x00F#32 64 .read).off.toNat % 8 ≠ 0 := ⟨rfl, by decide, rfl, by decide⟩

theorem test_meets_ReservedOffsetIsBusError :
    (∀ off ∈ [0x068, 0x0F8, 0x0FF, 0x190, 0xFF8, 0xFFF, 0x2000, 0xFFFFFFFF],
      (facing (r64 off) State.reset).pending = .access (access64 off .read) :: [])
    ∧ (∀ off ∈ [0x068, 0x0F8, 0x0FF], 0x068 ≤ (access64 off .read).off.toNat ∧ (access64 off .read).off.toNat < 0x100)
    ∧ (∀ off ∈ [0x190, 0xFF8, 0xFFF], 0x190 ≤ (access64 off .read).off.toNat ∧ (access64 off .read).off.toNat < 0x1000)
    ∧ (∀ off ∈ [0x2000, 0xFFFFFFFF], 0x1000 + State.reset.dataBytes ≤ (access64 off .read).off.toNat) :=
  ⟨fun _ _ => rfl, by decide, by decide, by decide⟩

theorem test_meets_StepCompletesUnlessBusError :
    State.reset.pending = [] ∧ (facing (.resetInput true) State.reset).pending = .resetInput true :: []
      ∧ EventLegal (facing (.resetInput true) State.reset).dataBytes (.resetInput true)
      ∧ (∀ off ∈ [0x000, 0x060, 0x100, 0x188, 0x1000, 0x1FF8],
          (facing (r64 off) State.reset).pending = r64 off :: [] ∧ EventLegal (facing (r64 off) State.reset).dataBytes (r64 off))
      ∧ ∀ off ∈ [0x068, 0xFF8, 0x2000],
          (facing (r64 off) State.reset).pending = r64 off :: []
            ∧ ¬ EventLegal (facing (r64 off) State.reset).dataBytes (r64 off) := by
  refine ⟨rfl, rfl, trivial, ?_, ?_⟩
  · intro off h
    refine ⟨rfl, ?_⟩
    simp only [List.mem_cons, List.not_mem_nil, or_false] at h
    rcases h with rfl | rfl | rfl | rfl | rfl | rfl <;> simp only [EventLegal, r64] <;> decide
  · intro off h
    refine ⟨rfl, ?_⟩
    simp only [List.mem_cons, List.not_mem_nil, or_false] at h
    rcases h with rfl | rfl | rfl <;> simp only [EventLegal, r64] <;> decide

theorem test_meets_RegisterReadsReturnValues :
    (∀ off ∈ [0x000, 0x008, 0x010, 0x018, 0x020, 0x028, 0x030, 0x038, 0x040, 0x048, 0x050, 0x058, 0x060],
      (facing (r64 off) State.reset).pending = r64 off :: [] ∧ (facing (r64 off) State.reset).resetAsserted = false)
    ∧ (facing (r64 0x060) State.reset).ctx.valid = false
    ∧ (facing (r64 0x060) (message (contextA .noPadding) 0 [])).ctx.valid = true := ⟨fun _ _ => ⟨rfl, rfl⟩, rfl, rfl⟩

theorem test_meets_RegisterWritesStoreOrAreIgnored :
    ∀ off ∈ [0x008, 0x010, 0x018, 0x020, 0x028, 0x030, 0x038, 0x040, 0x048, 0x050, 0x058, 0x060],
      (facing (w64 off 0xFFFF#64) State.reset).pending = w64 off 0xFFFF#64 :: []
        ∧ (facing (w64 off 0xFFFF#64) State.reset).resetAsserted = false := fun _ _ => ⟨rfl, rfl⟩

theorem test_meets_BufferWordsAreLittleEndian :
    (∀ off ∈ [0x100, 0x178, 0x180, 0x188, 0x1000, 0x1FF8], off % 8 = 0
        ∧ ((0x100 ≤ off ∧ off < 0x180) ∨ (0x180 ≤ off ∧ off < 0x190)
          ∨ (0x1000 ≤ off ∧ off < 0x1000 + State.reset.dataBytes)))
      ∧ (facing (w64 0x188 1#64) State.reset).pending = w64 0x188 1#64 :: []
      ∧ (facing (w64 0x188 1#64) State.reset).resetAsserted = false
      ∧ (facing (r64 0x1FF8) State.reset).pending = r64 0x1FF8 :: []
      ∧ (facing (r64 0x1FF8) State.reset).resetAsserted = false := ⟨by decide, rfl, rfl, rfl, rfl⟩

theorem test_meets_OtherAccessesAreIdempotent :
    State.reset.mem.wf = true ∧ ((access64 0x010 (.write 5#64)).off = 0#32 → (access64 0x010 (.write 5#64)).op = .read)
      ∧ performAccess State.reset (access64 0x010 (.write 5#64)) = .next { State.reset with bsz := 5#64 }
      ∧ (access64 0x000 .read).op = .read
      ∧ performAccess State.reset (access64 0x000 .read) = .next { State.reset with replies := [0#64] } := by
  refine ⟨rfl, by decide, ?_, rfl, ?_⟩ <;> with_unfolding_all rfl

/-- Another key schedule and another `KEYBUF` than after reset. -/
def otherKey : State :=
  { State.reset with ctx := { State.reset.ctx with k := Vector.replicate 17 1#64 }, mem := [(0x100, 1#8)] }

theorem test_meets_KeyIsNotReadable :
    otherKey = { State.reset with ctx := { State.reset.ctx with k := Vector.replicate 17 1#64 }, mem := otherKey.mem }
      ∧ (∀ x, (x < 0x100 ∨ 0x180 ≤ x) → otherKey.readByte x = State.reset.readByte x)
      ∧ (access64 0x008 .read).op = .read ∧ (access64 0x068 .read).op = .read
      ∧ performAccess State.reset (access64 0x008 .read) = .next { State.reset with replies := [0#64] }
      ∧ performAccess State.reset (access64 0x068 .read) = .fault .busError
      ∧ (∀ off ∈ [0x100, 0x178], off % 8 = 0 ∧ 0x100 ≤ off ∧ off < 0x180) := by
  refine ⟨rfl, fun x hx => ?_, rfl, rfl, ?_, ?_, by decide⟩
  · have hne : x ≠ 0x100 := by omega
    simp [otherKey, State.readByte, Memory.find, hne, State.reset, State.resetWith]
  · with_unfolding_all rfl
  · with_unfolding_all rfl

/-- Parameters with a window that does not start at address 0. -/
def farParams : Config.Params := { dataUnits := 0, engineBase := 0x40000000 }

theorem test_meets_WindowRoutesToOffsets :
    (∀ off ∈ [0, 0x107F], off < 0x1000 + farParams.dataBytes ∧ 0x40000000 + off = farParams.engineBase + off)
      ∧ 0x3FFFFFFF < farParams.engineBase
      ∧ farParams.engineBase + 0x1000 + farParams.dataBytes ≤ 0x40001080 := by decide

/-! ### The hypotheses of the statements are met: reset and the commands -/

theorem test_meets_ResetValues : State.reset = State.resetWith Config.exampleParams 0 ∧ 127 < 128 ∧ 15 < 16 :=
  ⟨rfl, by decide, by decide⟩

theorem test_meets_ResetInputForcesResetState :
    (facing (.resetInput true) (staged 256 32 16 1)).pending = .resetInput true :: []
      ∧ (facing (.resetInput false) heldInReset).pending = .resetInput false :: []
      ∧ (facing (.resetInput false) heldInReset).resetAsserted = true
      ∧ (facing (.resetInput false) (staged 256 32 16 1)).pending = .resetInput false :: []
      ∧ (facing (.resetInput false) (staged 256 32 16 1)).resetAsserted = false := ⟨rfl, rfl, rfl, rfl, rfl⟩

theorem test_meets_ResetPulseResetsEngine :
    ((staged 256 32 16 1).setPending [.resetInput true, .resetInput false]).pending
      = .resetInput true :: .resetInput false :: [] := rfl

theorem test_meets_AccessesUnderResetHaveNoEffect :
    (facing (w64 0x010 256#64) heldInReset).resetAsserted = true ∧ (facing (w64 0x010 256#64) heldInReset).AtReset
      ∧ (facing (w64 0x010 256#64) heldInReset).pending = .access (access64 0x010 (.write 256#64)) :: []
      ∧ (access64 0x010 (.write 256#64)).wellFormed = true
      ∧ Mapped heldInReset.dataBytes (access64 0x010 (.write 256#64)).off.toNat
      ∧ ∀ off ∈ [0x000, 0x188, 0x1000, 0x1FF8],
          (facing (r64 off) heldInReset).resetAsserted = true ∧ (facing (r64 off) heldInReset).AtReset
            ∧ (facing (r64 off) heldInReset).pending = .access (access64 off .read) :: []
            ∧ (access64 off .read).wellFormed = true ∧ Mapped heldInReset.dataBytes (access64 off .read).off.toNat :=
  ⟨rfl, rfl, rfl, by decide, by decide, by
    intro off h
    refine ⟨rfl, rfl, rfl, ?_⟩
    simp only [List.mem_cons, List.not_mem_nil, or_false] at h
    rcases h with rfl | rfl | rfl | rfl <;> decide⟩

/-- R220: a write of `BSZ` while reset is asserted has no effect. -/
theorem test_write_under_reset :
    nextHas (step (facing (w64 0x010 256#64) heldInReset))
      (fun t => decide (t.bsz = 0#64 ∧ t.resetAsserted = true)) = true := by decide +kernel

theorem test_meets_StepsUnderResetEndAtReset :
    (∃ t, step (facing (.resetInput true) (staged 256 32 16 1)) = .next t)
      ∧ (facing (.resetInput true) (staged 256 32 16 1)).pending = .resetInput true :: []
      ∧ (facing (.resetInput true) (staged 256 32 16 1)).pending ≠ []
      ∧ (∃ t, step (facing (.resetInput false) heldInReset) = .next t)
      ∧ (facing (.resetInput false) heldInReset).resetAsserted = true
      ∧ (∃ t, step State.reset = .next t) ∧ ∀ l rest, State.reset.pending ≠ .resetInput l :: rest :=
  ⟨⟨_, rfl⟩, rfl, List.cons_ne_nil _ _, ⟨_, rfl⟩, rfl, ⟨_, rfl⟩, fun _ _ h => by cases h⟩

theorem test_meets_ConfigureBuildsContext :
    ∀ p ∈ [(256, 32, 0), (512, 64, 1), (1024, 128, 2)],
      ((staged p.1 p.2.1 16 p.2.2).bsz.toNat = 256 ∨ (staged p.1 p.2.1 16 p.2.2).bsz.toNat = 512
          ∨ (staged p.1 p.2.1 16 p.2.2).bsz.toNat = 1024)
        ∧ (staged p.1 p.2.1 16 p.2.2).keylen.toNat = (staged p.1 p.2.1 16 p.2.2).bsz.toNat / 8
        ∧ (staged p.1 p.2.1 16 p.2.2).twlen.toNat = 16 ∧ (staged p.1 p.2.1 16 p.2.2).pmode.toNat ≤ 2 := by decide +kernel

/-- A state whose staging fails each check of R163 in turn (V2, V13). -/
theorem test_meets_ConfigureRaisesFirstError :
    (∀ n ∈ [0, 128, 255, 2048], ¬ ((staged n 16 16 0).bsz.toNat = 256 ∨ (staged n 16 16 0).bsz.toNat = 512
        ∨ (staged n 16 16 0).bsz.toNat = 1024))
      ∧ (∀ n ∈ [31, 33, 2 ^ 64 - 1], (staged 256 n 16 0).bsz.toNat = 256
          ∧ (staged 256 n 16 0).keylen.toNat ≠ (staged 256 n 16 0).bsz.toNat / 8)
      ∧ (∀ n ∈ [15, 17], (staged 512 64 n 0).bsz.toNat = 512
          ∧ (staged 512 64 n 0).keylen.toNat = (staged 512 64 n 0).bsz.toNat / 8 ∧ (staged 512 64 n 0).twlen.toNat ≠ 16)
      ∧ (∀ n ∈ [3, 2 ^ 64 - 1], (staged 1024 128 16 n).bsz.toNat = 1024
          ∧ (staged 1024 128 16 n).keylen.toNat = (staged 1024 128 16 n).bsz.toNat / 8
          ∧ (staged 1024 128 16 n).twlen.toNat = 16 ∧ 2 < (staged 1024 128 16 n).pmode.toNat) := by decide +kernel

/-- A step that changes the context, by CONFIGURE and by a reset. -/
theorem test_meets_ContextChangesOnlyByConfigure :
    (∃ t, step (facing (w64 0x000 1#64) (staged 256 32 16 1)) = .next t
        ∧ t.ctx ≠ (facing (w64 0x000 1#64) (staged 256 32 16 1)).ctx)
      ∧ ∃ t, step (facing (.resetInput true) (message (contextA .noPadding) 0 [])) = .next t
        ∧ t.ctx ≠ (facing (.resetInput true) (message (contextA .noPadding) 0 [])).ctx := by
  constructor
  · obtain ⟨t, h, hp⟩ := nextHas_exists (o := step (facing (w64 0x000 1#64) (staged 256 32 16 1)))
      (p := fun t => decide (t.ctx ≠ (facing (w64 0x000 1#64) (staged 256 32 16 1)).ctx)) (by decide +kernel)
    exact ⟨t, h, of_decide_eq_true hp⟩
  · obtain ⟨t, h, hp⟩ := nextHas_exists (o := step (facing (.resetInput true) (message (contextA .noPadding) 0 [])))
      (p := fun t => decide (t.ctx ≠ (facing (.resetInput true) (message (contextA .noPadding) 0 [])).ctx)) (by decide +kernel)
    exact ⟨t, h, of_decide_eq_true hp⟩

theorem test_meets_ContextValidClearedOnlyByReset :
    (statusWord (facing (.resetInput true) (message (contextA .noPadding) 0 []))).getLsbD 0 = true
      ∧ ∃ t, step (facing (.resetInput true) (message (contextA .noPadding) 0 [])) = .next t ∧ (statusWord t).getLsbD 0 = false :=
  ⟨by decide +kernel, _, rfl, by decide +kernel⟩

/-- A 1-byte message in ZeroPadding over old bytes 0xFF, under the identity context: a command that changes `DATA`. -/
def oneByte : State := message (zeroKey .zeroPadding 0#64 0#64) 1 (List.replicate 32 0xFF#8)

theorem test_meets_CommandsLeaveHostRegisters : ∀ i : Instr, ∃ t, exec i oneByte = .next t := by
  intro i
  cases i
  · exact ⟨_, rfl⟩
  · obtain ⟨t, h, _⟩ := nextHas_exists (o := exec .encrypt oneByte) (p := fun _ => true) (by decide +kernel)
    exact ⟨t, h⟩
  · obtain ⟨t, h, _⟩ := nextHas_exists (o := exec .decrypt oneByte) (p := fun _ => true) (by decide +kernel)
    exact ⟨t, h⟩

theorem test_meets_CommandsRaiseOnlyTheirErrors :
    exec .configure State.reset = .next { State.reset with err := 1#8 }
      ∧ exec .encrypt State.reset = .next { State.reset with outlen := 0#64, err := 6#8 }
      ∧ exec .decrypt State.reset = .next { State.reset with outlen := 0#64, err := 6#8 } := ⟨rfl, rfl, rfl⟩

theorem test_meets_FailedCommandsCommitNothing :
    (exec .encrypt State.reset = .next { State.reset with outlen := 0#64, err := 6#8 } ∧ (6#8 : Byte) ≠ 0#8)
      ∧ ∃ t, exec .encrypt oneByte = .next t ∧ ∃ x, t.readByte x ≠ oneByte.readByte x := by
  refine ⟨⟨rfl, by decide⟩, ?_⟩
  obtain ⟨t, h, hp⟩ := nextHas_exists (o := exec .encrypt oneByte)
    (p := fun t => decide (t.readByte 0x1001 ≠ oneByte.readByte 0x1001)) (by decide +kernel)
  exact ⟨t, h, 0x1001, of_decide_eq_true hp⟩

theorem test_meets_MessageCommandsCheckContextThenCapacity :
    State.reset.ctx.valid = false
      ∧ (message (contextA .noPadding) 4097 []).ctx.valid = true
      ∧ (message (contextA .noPadding) 4097 []).dataBytes < (message (contextA .noPadding) 4097 []).len.toNat :=
  ⟨rfl, rfl, by decide⟩

/-- The lengths at the edges of R171 and R181, all within `DATA`. -/
theorem test_meets_EncryptLengthRule :
    (∀ n ∈ [0, 31, 33, 4096], (message (contextA .noPadding) n []).ctx.valid = true
        ∧ (message (contextA .noPadding) n []).len.toNat ≤ (message (contextA .noPadding) n []).dataBytes
        ∧ (message (contextA .noPadding) n []).ctx.pmode = .noPadding
        ∧ (message (contextA .noPadding) n []).len.toNat ≠ (message (contextA .noPadding) n []).ctx.bits / 8)
      ∧ ∀ n ∈ [0, 1, 4096], (message (contextA .lengthTag) n []).ctx.valid = true
        ∧ (message (contextA .lengthTag) n []).len.toNat ≤ (message (contextA .lengthTag) n []).dataBytes
        ∧ (message (contextA .lengthTag) n []).ctx.pmode ≠ .noPadding := by decide +kernel

theorem test_meets_DecryptLengthRule :
    (∀ n ∈ [0, 31, 64], (message (contextA .noPadding) n []).ctx.valid = true
        ∧ (message (contextA .noPadding) n []).len.toNat ≤ (message (contextA .noPadding) n []).dataBytes
        ∧ (message (contextA .noPadding) n []).ctx.pmode = .noPadding
        ∧ (message (contextA .noPadding) n []).len.toNat ≠ (message (contextA .noPadding) n []).ctx.bits / 8)
      ∧ (∀ n ∈ [1, 65, 4095], (message (contextA .zeroPadding) n []).ctx.valid = true
        ∧ (message (contextA .zeroPadding) n []).len.toNat ≤ (message (contextA .zeroPadding) n []).dataBytes
        ∧ (message (contextA .zeroPadding) n []).ctx.pmode ≠ .noPadding
        ∧ (message (contextA .zeroPadding) n []).len.toNat % ((message (contextA .zeroPadding) n []).ctx.bits / 8) ≠ 0)
      ∧ (message (contextA .zeroPadding) 0 []).len.toNat = 0 := by decide +kernel

/-- Message lengths 0, 1 and the full `DATA` in a padded mode, one block in mode None. -/
theorem test_meets_EncryptWritesCiphertext :
    (∀ n ∈ [0, 1, 4096], (message (contextA .lengthTag) n []).len.toNat = n
        ∧ (message (contextA .lengthTag) n []).ctx.bits / 8 = 32 ∧ (message (contextA .lengthTag) n []).ctx.valid = true
        ∧ (message (contextA .lengthTag) n []).ctx.Wf ∧ n ≤ (message (contextA .lengthTag) n []).dataBytes
        ∧ ((message (contextA .lengthTag) n []).ctx.pmode = .noPadding → n = 32))
      ∧ (message (contextA .noPadding) 32 []).len.toNat = 32 ∧ (message (contextA .noPadding) 32 []).ctx.bits / 8 = 32
      ∧ (message (contextA .noPadding) 32 []).ctx.valid = true ∧ (message (contextA .noPadding) 32 []).ctx.Wf
      ∧ 32 ≤ (message (contextA .noPadding) 32 []).dataBytes
      ∧ 32 * (127 + 1) ≤ 4096 + padLen 4096 32 := by decide +kernel

/-- A last byte 0x20 = 32 in LengthTagPadding, no block at all, one block in mode None, two in ZeroPadding. -/
theorem test_meets_DecryptWritesPlaintext :
    ∀ p ∈ [(PadMode.lengthTag, 32), (PadMode.lengthTag, 0), (PadMode.noPadding, 32), (PadMode.zeroPadding, 64)],
      (message (zeroKey p.1 0#64 0#64) p.2 (zerosThen 32 0x20#8)).len.toNat = p.2
        ∧ (message (zeroKey p.1 0#64 0#64) p.2 (zerosThen 32 0x20#8)).ctx.bits / 8 = 32
        ∧ (message (zeroKey p.1 0#64 0#64) p.2 (zerosThen 32 0x20#8)).ctx.valid = true
        ∧ (message (zeroKey p.1 0#64 0#64) p.2 (zerosThen 32 0x20#8)).ctx.Wf
        ∧ p.2 ≤ (message (zeroKey p.1 0#64 0#64) p.2 (zerosThen 32 0x20#8)).dataBytes
        ∧ p.2 % 32 = 0
        ∧ ((message (zeroKey p.1 0#64 0#64) p.2 (zerosThen 32 0x20#8)).ctx.pmode = .noPadding → p.2 = 32)
        ∧ ((message (zeroKey p.1 0#64 0#64) p.2 (zerosThen 32 0x20#8)).ctx.pmode = .lengthTag → 0 < p.2 →
          (byteAt (decBlockBytes (message (zeroKey p.1 0#64 0#64) p.2 (zerosThen 32 0x20#8)).ctx
            ((message (zeroKey p.1 0#64 0#64) p.2 (zerosThen 32 0x20#8)).readBytes (dataBase + (p.2 - 32)) 32))
              (32 - 1)).toNat ≤ p.2) := by decide +kernel

/-- A last byte 0x21 = 33 of 32 bytes. -/
theorem test_meets_DecryptInvalidPaddingKeepsData :
    (message (zeroKey .lengthTag 0#64 0#64) 32 (zerosThen 32 0x21#8)).len.toNat = 32
      ∧ (message (zeroKey .lengthTag 0#64 0#64) 32 (zerosThen 32 0x21#8)).ctx.bits / 8 = 32
      ∧ (message (zeroKey .lengthTag 0#64 0#64) 32 (zerosThen 32 0x21#8)).ctx.valid = true
      ∧ (message (zeroKey .lengthTag 0#64 0#64) 32 (zerosThen 32 0x21#8)).ctx.Wf
      ∧ 32 ≤ (message (zeroKey .lengthTag 0#64 0#64) 32 (zerosThen 32 0x21#8)).dataBytes
      ∧ (message (zeroKey .lengthTag 0#64 0#64) 32 (zerosThen 32 0x21#8)).ctx.pmode = .lengthTag
      ∧ 32 < (byteAt (decBlockBytes (message (zeroKey .lengthTag 0#64 0#64) 32 (zerosThen 32 0x21#8)).ctx
          ((message (zeroKey .lengthTag 0#64 0#64) 32 (zerosThen 32 0x21#8)).readBytes (dataBase + (32 - 32)) 32))
            (32 - 1)).toNat := by decide +kernel

/-- Each way of R142, R145 and R148 in which the framing loses nothing, on 32 bytes 0x00 but the last. -/
theorem test_meets_DecryptAfterEncryptRestoresMessage :
    ∀ p ∈ [(PadMode.noPadding, 32, 7#8), (PadMode.lengthTag, 31, 7#8), (PadMode.lengthTag, 0, 7#8),
        (PadMode.lengthTag, 32, 0#8), (PadMode.zeroPadding, 0, 7#8), (PadMode.zeroPadding, 32, 7#8)],
      (message (contextA p.1) p.2.1 (zerosThen 32 p.2.2)).len.toNat = p.2.1
        ∧ (message (contextA p.1) p.2.1 (zerosThen 32 p.2.2)).ctx.bits / 8 = 32
        ∧ (message (contextA p.1) p.2.1 (zerosThen 32 p.2.2)).ctx.valid = true
        ∧ (message (contextA p.1) p.2.1 (zerosThen 32 p.2.2)).ctx.Wf
        ∧ nextHas (exec .encrypt (message (contextA p.1) p.2.1 (zerosThen 32 p.2.2))) (fun t => decide (t.err = 0#8)) = true
        ∧ (p.1 = .noPadding
          ∨ (p.1 = .lengthTag ∧ (p.2.1 % 32 ≠ 0 ∨ p.2.1 = 0
              ∨ (message (contextA p.1) p.2.1 (zerosThen 32 p.2.2)).readByte (dataBase + (p.2.1 - 1)) = 0#8))
          ∨ (p.1 = .zeroPadding ∧ (p.2.1 = 0
              ∨ (message (contextA p.1) p.2.1 (zerosThen 32 p.2.2)).readByte (dataBase + (p.2.1 - 1)) ≠ 0#8))) := by
  decide +kernel

/-! ### The hypotheses of the statements are met: the transform and the padding codec -/

/-- A block of four words, for the contexts above. -/
def blockA : List Word := [0x1#64, 0#64, 0#64, 0x8000000000000000#64]

theorem test_meets_rotations : 0 < 64 ∧ 1 ≤ 63 ∧ 63 < 64 := by decide

theorem test_meets_StepAmountsRepeatTweakBits :
    0 < 18 ∧ 0 % 3 = 0 ∧ 16 < 18 ∧ 16 % 3 = 1 ∧ 17 < 18 ∧ 17 % 3 = 2 ∧ blockA[3]? = some 0x8000000000000000#64 := by decide

/-- The block fits the context, the last lane among its lanes: StepsUpdateEachLane, DecBlockInvertsEncBlock. -/
theorem test_meets_transform :
    blockA.length = (contextA .noPadding).wc ∧ 3 < (contextA .noPadding).wc ∧ blockA[3]? = some 0x8000000000000000#64 := by
  decide

/-- The suffix sums of V6. -/
def sumsA (s : Nat) : Nat := [20, 1, 61, 38, 19, 15, 56, 37, 33, 10, 55, 51, 28, 9, 5, 46, 27, 23].getD s 0

theorem test_meets_EncBlockClosedForm :
    blockA.length = (contextA .noPadding).wc ∧ sumsA 18 = 0
      ∧ ∀ s, s < 18 → sumsA s = ((contextA .noPadding).amt s + sumsA (s + 1)) % 64 := by decide +kernel

theorem test_meets_EncBlockIdentityCases :
    blockA.length = (zeroKey .noPadding 64#64 0#64).wc
      ∧ (zeroKey .noPadding 64#64 0#64).t0.toNat % 64 = 0 ∧ (zeroKey .noPadding 64#64 0#64).t1.toNat % 64 = 0
      ∧ (∀ j, j < (zeroKey .noPadding 32#64 0#64).wc → (zeroKey .noPadding 32#64 0#64).keyWord j = 0#64)
      ∧ 6 * (32 + 0 + (32 ^^^ 0)) % 64 = 0
      ∧ (zeroKey .noPadding 32#64 0#64).t0.toNat % 64 = 32 ∧ (zeroKey .noPadding 32#64 0#64).t1.toNat % 64 = 0 := by
  decide +kernel

/-- The pairs of V9: tweak words equal in their low six bits, and a zero key with equal sums. -/
theorem test_meets_TweakActsThroughTwelveBits :
    (zeroKey .noPadding 0x153#64 0x44#64).k = (zeroKey .noPadding 0x13#64 0x04#64).k
      ∧ (zeroKey .noPadding 0x153#64 0x44#64).wc = (zeroKey .noPadding 0x13#64 0x04#64).wc
      ∧ blockA.length = (zeroKey .noPadding 0x13#64 0x04#64).wc
      ∧ (0x153#64 : Word).toNat % 64 = (0x13#64 : Word).toNat % 64 ∧ (0x44#64 : Word).toNat % 64 = (0x04#64 : Word).toNat % 64
      ∧ (∀ j, j < 4 → (zeroKey .noPadding 1#64 0#64).keyWord j = 0#64 ∧ (zeroKey .noPadding 0#64 1#64).keyWord j = 0#64)
      ∧ 6 * (0 + 1 + (0 ^^^ 1)) % 64 = 6 * (1 + 0 + (1 ^^^ 0)) % 64 := by decide +kernel

/-- The context of `KA` with another parity word. -/
def otherParity : Context := { contextA .noPadding with k := keySlots (keyA ++ [0#64]) }

theorem test_meets_ParityWordIsNeverUsed :
    otherParity.wc = (contextA .noPadding).wc ∧ otherParity.t0 = (contextA .noPadding).t0
      ∧ otherParity.t1 = (contextA .noPadding).t1
      ∧ (∀ j, j < (contextA .noPadding).wc → otherParity.keyWord j = (contextA .noPadding).keyWord j)
      ∧ otherParity.keyWord 4 ≠ (contextA .noPadding).keyWord 4
      ∧ blockA.length = (contextA .noPadding).wc := by decide +kernel

theorem test_meets_byte_forms :
    7 < 8 ∧ (zerosThen 32 0x20#8).length = 8 * 4 ∧ (zerosThen 32 0x20#8).length = 8 * (contextA .noPadding).wc := by
  decide +kernel

theorem test_meets_PadLenReachesBlockBoundary :
    0 < 32 ∧ 64 % 32 = 0 ∧ 33 % 32 ≠ 0 ∧ (33 ≤ 64 ∧ 64 % 32 = 0) := by decide

/-- A message for each case of R145; in the fourth the last byte is 1 and is the length, in the last it is the length
and one more. -/
theorem test_meets_LengthTagRoundTripCases :
    (zerosThen 31 7#8).length % 32 ≠ 0 ∧ ([] : List Byte).length = 0
      ∧ (0 < (zerosThen 32 0#8).length ∧ (zerosThen 32 0#8).length % 32 = 0
        ∧ byteAt (zerosThen 32 0#8) ((zerosThen 32 0#8).length - 1) = 0#8)
      ∧ (∀ v ∈ [1, 32], 0 < (zerosThen 32 (BitVec.ofNat 8 v)).length ∧ (zerosThen 32 (BitVec.ofNat 8 v)).length % 32 = 0
        ∧ (byteAt (zerosThen 32 (BitVec.ofNat 8 v)) ((zerosThen 32 (BitVec.ofNat 8 v)).length - 1)).toNat = v
        ∧ 1 ≤ v ∧ v ≤ (zerosThen 32 (BitVec.ofNat 8 v)).length)
      ∧ (zerosThen 32 33#8).length % 32 = 0
      ∧ (zerosThen 32 33#8).length < (byteAt (zerosThen 32 33#8) ((zerosThen 32 33#8).length - 1)).toNat := by
  decide +kernel

/-- Five bytes in a block of 32: the first pad byte is byte 5, the last is byte 31. -/
theorem test_meets_PadBytesOfBothModes :
    (zerosThen 5 7#8).length = 5 ∧ 4 < (zerosThen 5 7#8).length ∧ 31 < (zerosThen 5 7#8).length + padLen (zerosThen 5 7#8).length 32
      ∧ padLen (zerosThen 32 7#8).length 32 = 0 ∧ ((zerosThen 5 7#8).length ≤ 32 ∧ 32 % 32 = 0) := by decide +kernel

theorem test_meets_UnpadRulesOfBothModes :
    ([] : List Byte).length = 0 ∧ 0 < (zerosThen 32 33#8).length
      ∧ (byteAt (zerosThen 32 33#8) ((zerosThen 32 33#8).length - 1)).toNat = 33 ∧ (zerosThen 32 33#8).length < 33
      ∧ (byteAt (zerosThen 32 32#8) ((zerosThen 32 32#8).length - 1)).toNat = 32 ∧ 32 ≤ (zerosThen 32 32#8).length := by
  decide +kernel

theorem test_meets_ZeroPaddingStripsTrailingZeros : (32 = 32 ∨ 32 = 64 ∨ 32 = 128) ∧ 31 ≤ 31 ∧ 31 < 32 := by decide

theorem test_meets_FramedLengths :
    (zerosThen 32 7#8).length = 32 ∧ (zerosThen 31 7#8).length ≠ 32 ∧ PadMode.lengthTag ≠ .noPadding
      ∧ (0 < (zerosThen 32 33#8).length
        ∧ (zerosThen 32 33#8).length < (byteAt (zerosThen 32 33#8) ((zerosThen 32 33#8).length - 1)).toNat)
      ∧ (0 < (zerosThen 32 32#8).length
        ∧ (byteAt (zerosThen 32 32#8) ((zerosThen 32 32#8).length - 1)).toNat ≤ (zerosThen 32 32#8).length) := by
  decide +kernel

/-! ### The hypotheses of the statements are met: invariants -/

/-- A state after CONFIGURE, with a message, about to run ENCRYPT. -/
def beforeEncrypt : State := facing (w64 0x000 2#64) (message (contextA .lengthTag) 1 [7#8])

theorem test_meets_StepKeepsInvariant : beforeEncrypt.Inv ∧ ∃ t, step beforeEncrypt = .next t := by
  refine ⟨by decide +kernel, ?_⟩
  obtain ⟨t, h, _⟩ := nextHas_exists (o := step beforeEncrypt) (p := fun _ => true) (by decide +kernel)
  exact ⟨t, h⟩

theorem test_meets_StepKeepsParameters :
    (∃ t, step beforeEncrypt = .next t) ∧ ∃ t, step (facing (.resetInput true) beforeEncrypt) = .next t ∧ t.draw = beforeEncrypt.draw + 1 :=
  ⟨test_meets_StepKeepsInvariant.2, _, rfl, rfl⟩

end Sys2Proof.Tests
end

section
/-! Rotations (00_scope.md R11): the equations of `rotl64` and `rotr64`, where each bit goes, and that the right rotation
undoes the left one. -/

namespace Sys2Proof.Machine

@[simp] theorem rotl64_zero (x : Word) : rotl64 x 0 = x := if_pos rfl

theorem rotl64_of_pos (x : Word) {n : Nat} (hn : 1 ≤ n) : rotl64 x n = (x <<< n ||| x >>> (64 - n)) :=
  if_neg (Nat.ne_of_gt hn)

theorem rotr64_eq_rotl64 (x : Word) (n : Nat) : rotr64 x n = rotl64 x ((64 - n) % 64) := rfl

/-- The model's rotation is the library's circular rotation of a bit vector. -/
theorem rotl64_eq_rotateLeft (x : Word) {n : Nat} (hn : n < 64) : rotl64 x n = x.rotateLeft n := by
  rw [BitVec.rotateLeft_def, Nat.mod_eq_of_lt hn]
  rcases Nat.eq_zero_or_pos n with rfl | hpos
  · simp [BitVec.ushiftRight_eq_zero]
  · exact rotl64_of_pos x hpos

/-- Bit `i` of the rotated word is the bit `n` places below it, counted circularly. -/
theorem getLsbD_rotl64 (x : Word) {n i : Nat} (hn : n < 64) (hi : i < 64) :
    (rotl64 x n).getLsbD i = x.getLsbD ((i + (64 - n)) % 64) := by
  rw [rotl64_eq_rotateLeft x hn, BitVec.getLsbD_rotateLeft_of_le hn]
  by_cases hin : i < n
  · have hidx : (i + (64 - n)) % 64 = 64 - n + i := by omega
    simp [hin, hidx]
  · have hidx : (i + (64 - n)) % 64 = i - n := by omega
    simp [hin, hi, hidx]

/-- R11's law: the two circular index shifts of a bit cancel. -/
theorem rotr64_rotl64 (x : Word) {n : Nat} (hn : n < 64) : rotr64 (rotl64 x n) n = x := by
  refine BitVec.eq_of_getLsbD_eq fun i hi => ?_
  have hback : (64 - n) % 64 < 64 := Nat.mod_lt _ (by decide)
  have hmid : (i + (64 - (64 - n) % 64)) % 64 < 64 := Nat.mod_lt _ (by decide)
  have hcancel : ((i + (64 - (64 - n) % 64)) % 64 + (64 - n)) % 64 = i := by omega
  rw [rotr64_eq_rotl64, getLsbD_rotl64 _ hback hi, getLsbD_rotl64 x hn hmid, hcancel]

/-- Settles O36: the defining equations of the rotations, and `rotr64_rotl64`. -/
theorem rotateRightUndoesRotateLeft : Obligations.RotateRightUndoesRotateLeft := by
  intro x n hn
  refine ⟨?_, rotl64_of_pos x, rotr64_eq_rotl64 x n, rotr64_rotl64 x hn⟩
  rintro rfl
  exact rotl64_zero x

end Sys2Proof.Machine
end

section
/-! The state as the host sees it (10_state.md): the reset values (R42), that the key is not readable (R38), and that only
CONFIGURE and a reset change the context (R36). -/

namespace Sys2Proof.Machine

/-! ### Reset values -/

/-- Every slot of the key schedule is 0 at reset, and an index beyond the slots reads 0. -/
@[simp] theorem Context.reset_keyWord (j : Nat) : Context.reset.keyWord j = 0#64 := by
  simp only [Context.keyWord, Context.reset, Vector.toList_replicate, List.getD_eq_getElem?_getD, List.getElem?_replicate]
  split <;> rfl

/-- Nothing is listed at reset, so a byte below `DATA` reads 0x00. -/
theorem State.resetWith_readByte_of_lt (p : Config.Params) (d : Nat) {a : Nat} (h : a < 0x1000) :
    (State.resetWith p d).readByte a = 0#8 :=
  Memory.unlisted_of_lt h d

/-- Settles O16: the registers are the fields of `State.resetWith`; the key slots and the buffer bytes are the two lemmas
above. -/
theorem resetValues : Obligations.ResetValues := by
  intro p d
  exact ⟨rfl, rfl, rfl, rfl, rfl, rfl, rfl, rfl, rfl, rfl, rfl, Context.reset_keyWord, rfl, rfl,
    fun i hi => State.resetWith_readByte_of_lt p d (by omega), fun i hi => State.resetWith_readByte_of_lt p d (by omega)⟩

/-! ### Reads do not see the key (R38) -/

theorem performAccess_read_some {s : State} {a : Access} {w : Word} (h : a.wellFormed = true) (hop : a.op = .read)
    (hr : readLocation s (locate s.dataBytes a.off.toNat) = some w) : performAccess s a = .next (s.reply w) := by
  rw [performAccess_read h hop, hr]

theorem performAccess_read_none {s : State} {a : Access} (h : a.wellFormed = true) (hop : a.op = .read)
    (hr : readLocation s (locate s.dataBytes a.off.toNat) = none) : performAccess s a = .fault .busError := by
  rw [performAccess_read h hop, hr]

theorem locate_keybuf {cap off : Nat} (h : 0x100 ≤ off) (h' : off < 0x180) : locate cap off = .keybuf off := by
  rcases locate_cases cap off with ⟨_, _⟩ | ⟨_, _, e⟩ | ⟨_, _, _⟩ | ⟨_, _, _⟩ | ⟨_, _, _⟩ | ⟨_, _⟩
  case inr.inl => exact e
  all_goals omega

/-- The buffers a read can see stand above `KEYBUF`. -/
theorem locate_readableBuffer_ge {cap off a : Nat} (h : locate cap off = .twbuf a ∨ locate cap off = .data a) :
    0x180 ≤ a := by
  obtain ⟨_, htw, hdata, _⟩ := registerAt_ne off
  rcases locate_cases cap off with ⟨_, e⟩ | ⟨_, _, e⟩ | ⟨_, _, e⟩ | ⟨_, _, e⟩ | ⟨_, _, e⟩ | ⟨_, e⟩ <;> rw [e] at h
  · exact absurd h (by simp [htw, hdata])
  · simp at h
  · simp at h; omega
  · simp at h
  · simp at h; omega
  · simp at h

/-- A word read depends on its eight bytes alone. -/
theorem State.readWord_congr {s t : State} {a : Nat} (h : ∀ x, a ≤ x → x < a + 8 → t.readByte x = s.readByte x) :
    t.readWord a = s.readWord a := by
  have hbytes : t.readBytes a 8 = s.readBytes a 8 :=
    List.map_congr_left fun i hi => h (a + i) (Nat.le_add_right a i) (Nat.add_lt_add_left (List.mem_range.mp hi) a)
  rw [State.readWord, State.readWord, hbytes]

/-- No location outside `TWBUF` and `DATA` shows a byte of the memory, and none shows `CTX.K`. -/
theorem readLocation_of_differ_in_key {s t : State} {k : Vector Word 17} {l : Location}
    (hst : t = { s with ctx := { s.ctx with k := k }, mem := t.mem })
    (hbytes : ∀ x, 0x180 ≤ x → t.readByte x = s.readByte x) (hl : ∀ a, l = .twbuf a ∨ l = .data a → 0x180 ≤ a) :
    readLocation t l = readLocation s l := by
  cases l with
  | twbuf a => exact congrArg some (State.readWord_congr fun x hx _ => hbytes x ((hl a (.inl rfl)).trans hx))
  | data a => exact congrArg some (State.readWord_congr fun x hx _ => hbytes x ((hl a (.inr rfl)).trans hx))
  | _ => rw [hst]; rfl

/-- Settles O13: a `KEYBUF` word is a constant 0, and the location that a read reaches shows neither `CTX.K` nor `KEYBUF`
(`readLocation_of_differ_in_key`), so both states give the same word or both refuse. -/
theorem keyIsNotReadable : Obligations.KeyIsNotReadable := by
  refine ⟨fun s off h8 hlo hhi => ?_, fun s t k a hst hbytes hop => ?_⟩
  · have hoff : (BitVec.ofNat 32 off).toNat = off := by simp; omega
    refine performAccess_read_some (by simp [Access.wellFormed, hoff, h8]) rfl ?_
    rw [hoff, locate_keybuf hlo hhi, readLocation]
  · cases hwf : a.wellFormed with
    | false => simp [performAccess_malformed hwf]
    | true =>
      have hcap : t.dataBytes = s.dataBytes := by rw [hst]; rfl
      have hread : readLocation t (locate t.dataBytes a.off.toNat) = readLocation s (locate s.dataBytes a.off.toNat) := by
        rw [hcap]
        exact readLocation_of_differ_in_key hst (fun x hx => hbytes x (.inr hx)) fun _ => locate_readableBuffer_ge
      cases hr : readLocation s (locate s.dataBytes a.off.toNat) with
      | none => simp [performAccess_read_none hwf hop hr, performAccess_read_none hwf hop (hread.trans hr)]
      | some w =>
        rw [performAccess_read_some hwf hop hr, performAccess_read_some hwf hop (hread.trans hr)]
        refine ⟨fun s' hs' => ⟨w, ?_, rfl⟩, fun hf => nomatch hf⟩
        cases hs'
        rfl

/-! ### What changes the context (R36) -/

theorem decode_eq_configure {c : Word} (h : decode c = .command .configure) : c = encode .configure := by
  unfold decode at h
  split at h
  · next hc => exact hc
  · split at h
    · cases h
    · split at h <;> cases h

/-- Staging that builds a context holds a padding mode of R74. -/
theorem configureResult_ok_pmode {s : State} {c : Context} (h : configureResult s = .ok c) : s.pmode.toNat ≤ 2 := by
  obtain ⟨_, _, _, mode, hmode, _⟩ := configureResult_ok h
  rw [← hmode]
  cases mode <;> decide

/-- A command keeps the context, or is a CONFIGURE that succeeds. -/
theorem exec_ctx {i : Instr} {s t : State} (h : exec i s = .next t) :
    t.ctx = s.ctx ∨ (i = .configure ∧ configureResult s = .ok t.ctx) := by
  cases i with
  | configure =>
    rcases execConfigure_cases s with ⟨e, _, he⟩ | ⟨c, hc, he⟩ <;> cases h.symm.trans he
    · exact .inl (s.raise_ctx _ _)
    · exact .inr ⟨rfl, hc⟩
  | encrypt =>
    rcases execEncrypt_cases s with ⟨e, _, he⟩ | ⟨y, _, he⟩ <;> cases h.symm.trans he
    · exact .inl (s.raise_ctx _ _)
    · exact .inl rfl
  | decrypt =>
    rcases execDecrypt_cases s with ⟨e, _, he⟩ | ⟨x, z, _, he⟩ <;> cases h.symm.trans he
    · exact .inl (s.raise_ctx _ _)
    · exact .inl rfl

/-- An access keeps the context, or is a `CMD` write that runs a CONFIGURE that succeeds. -/
theorem performAccess_ctx {s t : State} {a : Access} (h : performAccess s a = .next t) :
    t.ctx = s.ctx ∨ (HostEvent.access a = w64 0x000 (encode .configure) ∧ configureResult s = .ok t.ctx) := by
  obtain ⟨hwidth, _, ⟨_, w, _, rfl⟩ | ⟨v, hop, hw⟩⟩ := performAccess_next h
  · exact .inl rfl
  rcases writeLocation_next hw with ⟨hcmd, ⟨i, hi, he⟩ | ⟨_, rfl⟩⟩ | ⟨_, _, _, _, _, rfl⟩ | ⟨_, _, rfl⟩
  · rcases exec_ctx he with hkeep | ⟨rfl, hok⟩
    · exact .inl hkeep
    · have hoff : a.off = BitVec.ofNat 32 0x000 := BitVec.eq_of_toNat_eq ((locate_cmd_iff _ _).mp hcmd)
      refine .inr ⟨?_, hok⟩
      rw [w64_eq, ← hoff, ← decode_eq_configure hi, ← hop, ← hwidth]
  all_goals exact .inl rfl

/-- Settles O23: a step is idle, drives the reset input (`State.driveReset_cases`) or is an access (`performAccess_ctx`),
whose effect a reset that is asserted undoes. -/
theorem contextChangesOnlyByConfigure : Obligations.ContextChangesOnlyByConfigure := by
  intro s t hstep hne
  rcases step_next hstep with ⟨_, rfl⟩ | ⟨e, rest, hp, ⟨l, rfl, rfl⟩ | ⟨a, u, rfl, hu, rfl⟩⟩
  · exact absurd rfl hne
  · rcases (s.setPending rest).driveReset_cases l with ⟨_, _, hd⟩ | ⟨hreset, hd⟩ <;> rw [hd] at hne ⊢
    · exact absurd rfl hne
    · refine .inl ⟨hreset.imp id ?_, rfl⟩
      rintro rfl
      exact ⟨rest, hp⟩
  · have hlevel : u.resetAsserted = s.resetAsserted := (performAccess_hostSide hu).1
    cases hr : s.resetAsserted with
    | true =>
      rw [State.holdReset_of_asserted (hlevel.trans hr)]
      exact .inl ⟨.inl rfl, rfl⟩
    | false =>
      rw [State.holdReset_of_released (hlevel.trans hr)] at hne ⊢
      obtain ⟨hcmd, hok⟩ : _ ∧ configureResult s = .ok u.ctx := (performAccess_ctx hu).resolve_left hne
      obtain ⟨hbits, hkey, htweak, _⟩ := configureResult_ok hok
      exact .inr ⟨rfl, ⟨rest, by rw [hp, hcmd]⟩, (isBlockBits_iff _).mp hbits, hkey, htweak, configureResult_ok_pmode hok,
        hok⟩

end Sys2Proof.Machine
end

section
/-! The little-endian boundary (00_scope.md R13, 20_memory.md R54): the bytes of a decoded word, that a word is its eight
bytes, and the word accesses to the memory byte by byte. -/

namespace Sys2Proof.Machine

/-- The sum of R13 is below 2^64, so nothing is lost when it is taken as a word. -/
theorem toNat_le64Get (b : List Byte) (o : Nat) :
    (le64Get b o).toNat
      = (byteAt b o).toNat + (byteAt b (o + 1)).toNat * 2 ^ 8 + (byteAt b (o + 2)).toNat * 2 ^ 16
        + (byteAt b (o + 3)).toNat * 2 ^ 24 + (byteAt b (o + 4)).toNat * 2 ^ 32 + (byteAt b (o + 5)).toNat * 2 ^ 40
        + (byteAt b (o + 6)).toNat * 2 ^ 48 + (byteAt b (o + 7)).toNat * 2 ^ 56 := by
  rw [le64Get, BitVec.toNat_ofNat, Nat.mod_eq_of_lt]
  omega

/-- Bits `[8m+7 : 8m]` of a decoded word are byte `m` of the eight it is decoded from. -/
theorem extractLsb'_le64Get (b : List Byte) (o : Nat) {m : Nat} (h : m < 8) :
    (le64Get b o).extractLsb' (8 * m) 8 = byteAt b (o + m) := by
  refine BitVec.eq_of_toNat_eq ?_
  rw [BitVec.extractLsb'_toNat, Nat.shiftRight_eq_div_pow, toNat_le64Get]
  interval_cases m
  · rw [Nat.add_zero o]
    omega
  all_goals omega

/-- A word is its eight bytes: bit `i` is bit `i mod 8` of byte `i / 8`. -/
theorem word_ext_bytes {v w : Word} (h : ∀ m, m < 8 → v.extractLsb' (8 * m) 8 = w.extractLsb' (8 * m) 8) : v = w := by
  refine BitVec.eq_of_getLsbD_eq fun i hi => ?_
  have hbit : i % 8 < 8 := Nat.mod_lt _ (by decide)
  have hsplit : 8 * (i / 8) + i % 8 = i := Nat.div_add_mod i 8
  have hbyte := congrArg (·.getLsbD (i % 8)) (h (i / 8) (by omega))
  simpa [BitVec.getLsbD_extractLsb', hbit, hsplit] using hbyte

/-- A word is decoded exactly from its own bytes, least significant first. -/
theorem le64Get_eq_iff {b : List Byte} {o : Nat} {v : Word} :
    le64Get b o = v ↔ ∀ m, m < 8 → byteAt b (o + m) = v.extractLsb' (8 * m) 8 := by
  constructor
  · rintro rfl m hm
    exact (extractLsb'_le64Get b o hm).symm
  · exact fun h => word_ext_bytes fun m hm => (extractLsb'_le64Get b o hm).trans (h m hm)

/-- A word read is `v` exactly where the eight bytes of `v` stand. -/
theorem State.readWord_eq_iff (s : State) (a : Nat) (v : Word) :
    s.readWord a = v ↔ ∀ m, m < 8 → s.readByte (a + m) = v.extractLsb' (8 * m) 8 := by
  rw [State.readWord, le64Get_eq_iff]
  refine forall₂_congr fun m hm => ?_
  rw [Nat.zero_add, State.byteAt_readBytes s a hm]

/-- Byte `m` of a word that is read is the byte at offset `a + m`. -/
theorem State.extractLsb'_readWord (s : State) (a : Nat) {m : Nat} (h : m < 8) :
    (s.readWord a).extractLsb' (8 * m) 8 = s.readByte (a + m) :=
  ((s.readWord_eq_iff a _).mp rfl m h).symm

/-- A word write stores byte `m` of the word at offset `a + m`. -/
theorem State.readByte_writeWord_of_lt (s : State) (a : Nat) (v : Word) {m : Nat} (h : m < 8) :
    (s.writeWord a v).readByte (a + m) = v.extractLsb' (8 * m) 8 := by
  have hin : a ≤ a + m ∧ a + m < a + (le64Put v).length := by rw [length_le64Put]; omega
  rw [State.writeWord, State.readByte_writeBytes, if_pos hin, Nat.add_sub_cancel_left, byteAt_le64Put v h]

/-- A word write leaves every byte outside its eight. -/
theorem State.readByte_writeWord_of_outside (s : State) (a : Nat) (v : Word) {x : Nat} (h : x < a ∨ a + 8 ≤ x) :
    (s.writeWord a v).readByte x = s.readByte x := by
  have hout : ¬ (a ≤ x ∧ x < a + (le64Put v).length) := by rw [length_le64Put]; omega
  rw [State.writeWord, State.readByte_writeBytes, if_neg hout]

theorem State.readWord_writeWord (s : State) (a : Nat) (v : Word) : (s.writeWord a v).readWord a = v :=
  (State.readWord_eq_iff _ a v).mpr fun _ hm => s.readByte_writeWord_of_lt a v hm

end Sys2Proof.Machine
end

section
/-! The host port (20_memory.md): a malformed access is refused (R53), and the aligned 64-bit accesses of a step while reset
is released, with the buffer words they reach (R51, R54). -/

namespace Sys2Proof.Machine

/-! ### Malformed accesses (R53) -/

theorem Access.wellFormed_eq_false_iff (a : Access) : a.wellFormed = false ↔ a.width ≠ 64 ∨ a.off.toNat % 8 ≠ 0 := by
  rw [Access.wellFormed, Bool.and_eq_false_iff, beq_eq_false_iff_ne, beq_eq_false_iff_ne]

/-- Settles O6: the port refuses a malformed access before it looks at the location (`performAccess_malformed`). -/
theorem malformedAccessIsBusError : Obligations.MalformedAccessIsBusError := by
  intro s rest a hp hbad
  exact step_access_fault hp (performAccess_malformed (a.wellFormed_eq_false_iff.mpr hbad))

/-! ### Aligned 64-bit accesses -/

/-- A 64-bit access at an aligned offset of the 32-bit window is well formed. -/
theorem Access.wellFormed_of_aligned {off : Nat} (hlt : off < 2 ^ 32) (h8 : off % 8 = 0) (op : BusOp) :
    (Access.mk (BitVec.ofNat 32 off) 64 op).wellFormed = true := by
  have hoff : (BitVec.ofNat 32 off).toNat = off := Nat.mod_eq_of_lt hlt
  simp [Access.wellFormed, hoff, h8]

/-- While reset is released, the step on a host write `W64 off, v` is the write of the location at `off`. -/
theorem step_w64 {s : State} {rest : List HostEvent} {off : Nat} {v : Word} (hr : s.resetAsserted = false)
    (hlt : off < 2 ^ 32) (h8 : off % 8 = 0) (hp : s.pending = w64 off v :: rest) :
    step s = writeLocation (s.setPending rest) (locate s.dataBytes off) v := by
  have hoff : (BitVec.ofNat 32 off).toNat = off := Nat.mod_eq_of_lt hlt
  rw [step_access hr hp, performAccess_write (Access.wellFormed_of_aligned hlt h8 _) rfl, hoff]
  rfl

/-- While reset is released, the step on a host read `R64 off` of a location the engine does not refuse gives the host its
data. -/
theorem step_r64 {s : State} {rest : List HostEvent} {off : Nat} {w : Word} (hr : s.resetAsserted = false)
    (hlt : off < 2 ^ 32) (h8 : off % 8 = 0) (hp : s.pending = r64 off :: rest)
    (hw : readLocation (s.setPending rest) (locate s.dataBytes off) = some w) :
    step s = .next ((s.setPending rest).reply w) := by
  have hoff : (BitVec.ofNat 32 off).toNat = off := Nat.mod_eq_of_lt hlt
  rw [step_access hr hp, performAccess_read_some (Access.wellFormed_of_aligned hlt h8 _) rfl (by rw [hoff]; exact hw)]

/-! ### Buffer words (R54) -/

theorem isBufferByte_iff (cap a : Nat) :
    isBufferByte cap a = true
      ↔ (0x100 ≤ a ∧ a < 0x180) ∨ (0x180 ≤ a ∧ a < 0x190) ∨ (0x1000 ≤ a ∧ a < 0x1000 + cap) := by
  simp [isBufferByte, or_assoc]

/-- The whole window has 32-bit offsets, since `DATA_BYTES` is at most `2^32 - 0x1000` (00_scope.md R8). -/
theorem State.lt_of_isBufferByte {s : State} {a : Nat} (h : isBufferByte s.dataBytes a = true) : a < 2 ^ 32 := by
  have hcap : s.dataBytes ≤ 2 ^ 32 - 0x1000 := Config_dataBytes_le s.params
  rw [isBufferByte_iff] at h
  omega

/-- What stands at a buffer offset: below 0x180 a word of `KEYBUF`, from there up one of `TWBUF` or `DATA`. -/
theorem locate_of_isBufferByte {cap off : Nat} (h : isBufferByte cap off = true) :
    (off < 0x180 ∧ locate cap off = .keybuf off)
      ∨ (0x180 ≤ off ∧ (locate cap off = .twbuf off ∨ locate cap off = .data off)) := by
  rw [isBufferByte_iff] at h
  rcases locate_cases cap off with
    ⟨hlt, _⟩ | ⟨_, hlt, e⟩ | ⟨hge, _, e⟩ | ⟨hge, hlt, _⟩ | ⟨hge, _, e⟩ | ⟨hge, _⟩
  · omega
  · exact .inl ⟨hlt, e⟩
  · exact .inr ⟨hge, .inl e⟩
  · omega
  · exact .inr ⟨by omega, .inr e⟩
  · omega

/-- Every buffer takes a write as a word write at its offset. -/
theorem writeLocation_of_isBufferByte {cap off : Nat} (h : isBufferByte cap off = true) (s : State) (v : Word) :
    writeLocation s (locate cap off) v = .next (s.writeWord off v) := by
  rcases locate_of_isBufferByte h with ⟨_, e⟩ | ⟨_, e | e⟩ <;> rw [e, writeLocation]

/-- `KEYBUF` reads 0, the other two buffers read the word at their offset. -/
theorem readLocation_of_isBufferByte {cap off : Nat} (h : isBufferByte cap off = true) (s : State) :
    readLocation s (locate cap off) = some (if off < 0x180 then 0#64 else s.readWord off) := by
  rcases locate_of_isBufferByte h with ⟨hlt, e⟩ | ⟨hge, e | e⟩
  · rw [e, readLocation, if_pos hlt]
  all_goals rw [e, readLocation, if_neg (Nat.not_lt.mpr hge)]

/-- Settles O11: at a buffer offset a step is a word write (`writeLocation_of_isBufferByte`) or a word read
(`readLocation_of_isBufferByte`), and the byte lanes are those of `State.writeWord` and `State.readWord`. -/
theorem bufferWordsAreLittleEndian : Obligations.BufferWordsAreLittleEndian := by
  intro s rest off hr h8 hrange
  have hbuf : isBufferByte s.dataBytes off = true := (isBufferByte_iff _ _).mpr hrange
  have hlt : off < 2 ^ 32 := State.lt_of_isBufferByte hbuf
  refine ⟨fun v hp => ?_, fun hp => ?_⟩
  · have hstep := step_w64 hr hlt h8 hp
    rw [writeLocation_of_isBufferByte hbuf] at hstep
    exact ⟨_, hstep, rfl, fun m => State.readByte_writeWord_of_lt _ off v, State.readWord_writeWord _ off v,
      fun x => State.readByte_writeWord_of_outside _ off v⟩
  · have hstep := step_r64 hr hlt h8 hp (readLocation_of_isBufferByte hbuf _)
    rcases Nat.lt_or_ge off 0x180 with hkey | hread
    · rw [if_pos hkey] at hstep
      exact ⟨_, hstep, fun _ => rfl, fun hge => by omega, fun hge => by omega⟩
    · rw [if_neg (Nat.not_lt.mpr hread)] at hstep
      exact ⟨_, hstep, fun hlow => by omega, fun _ => rfl, fun _ m => State.extractLsb'_readWord _ off⟩

end Sys2Proof.Machine
end

section
/-! The decoder (30_encoding.md R71, R81): it reads back every encoded command, and any other word is illegal. -/

namespace Sys2Proof.Machine

@[simp] theorem decode_encode (i : Instr) : decode (encode i) = .command i := by
  cases i <;> rfl

/-- Being no command word, written out over the three words of R71. -/
theorem forall_ne_encode_iff {c : Word} :
    (∀ i, c ≠ encode i)
      ↔ c ≠ 0x0000000000000001#64 ∧ c ≠ 0x0000000000000002#64 ∧ c ≠ 0x0000000000000003#64 := by
  constructor
  · exact fun h => ⟨h .configure, h .encrypt, h .decrypt⟩
  · rintro ⟨hconfigure, hencrypt, hdecrypt⟩ i
    cases i with
    | configure => exact hconfigure
    | encrypt => exact hencrypt
    | decrypt => exact hdecrypt

/-- A word that is none of the three values of R71 passes every comparison of the decoder. -/
theorem decode_of_ne_encode {c : Word} (h : ∀ i, c ≠ encode i) : decode c = .illegalCommand := by
  obtain ⟨hconfigure, hencrypt, hdecrypt⟩ := forall_ne_encode_iff.mp h
  rw [decode, if_neg hconfigure, if_neg hencrypt, if_neg hdecrypt]

theorem decode_eq_command_iff {c : Word} {i : Instr} : decode c = .command i ↔ c = encode i := by
  constructor
  · intro h
    by_cases hc : ∃ j, c = encode j
    · obtain ⟨j, rfl⟩ := hc
      rw [decode_encode] at h
      cases h
      rfl
    · rw [decode_of_ne_encode (not_exists.mp hc)] at h
      cases h
  · rintro rfl
    exact decode_encode i

theorem decode_eq_illegalCommand_iff {c : Word} : decode c = .illegalCommand ↔ ∀ i, c ≠ encode i := by
  constructor
  · rintro h i rfl
    rw [decode_encode] at h
    cases h
  · exact decode_of_ne_encode

/-- Settles O1: a word decodes to a command exactly if it is the command's encoding (`decode_eq_command_iff`), and is illegal
exactly if it is no command's (`decode_eq_illegalCommand_iff`). -/
theorem decodeSelectsExactWords : Obligations.DecodeSelectsExactWords := fun _ =>
  ⟨decode_eq_command_iff, decode_eq_command_iff, decode_eq_command_iff,
    decode_eq_illegalCommand_iff.trans forall_ne_encode_iff⟩

end Sys2Proof.Machine
end

section
/-! The steps of the block transform (41_block_transform.md R123, R125): what one forward and one inverse step give every
lane, and the key word a lane of the block uses (40_schedules.md R104). -/

namespace Sys2Proof.Machine

/-- Lane `i` of a forward step depends on lane `i` of the block alone (R123). -/
theorem getElem?_encStep (c : Context) (ws : List Word) (s i : Nat) :
    (encStep c ws s)[i]? = (ws[i]?).map (encLane c (c.amt s) i) := by
  rw [encStep, getElem?_mapLanes, Nat.zero_add]

/-- Lane `i` of an inverse step depends on lane `i` of the block alone (R125). -/
theorem getElem?_decStep (c : Context) (ws : List Word) (s i : Nat) :
    (decStep c ws s)[i]? = (ws[i]?).map (decLane c (c.amt s) i) := by
  rw [decStep, getElem?_mapLanes, Nat.zero_add]

/-- A lane of the block is below the modulus `wc + 1` of R104, so the reduction of its key index does nothing. -/
theorem Context.keyIndex_of_lt {c : Context} {i : Nat} (h : i < c.wc) : c.keyIndex i = i :=
  Nat.mod_eq_of_lt (Nat.lt_succ_of_lt h)

theorem Context.laneKey_of_lt {c : Context} {i : Nat} (h : i < c.wc) : c.laneKey i = c.keyWord i := by
  rw [Context.laneKey, Context.keyIndex_of_lt h]

/-- Settles O39: both steps keep the number of words, update each lane by `encLane` and `decLane` (`getElem?_encStep`,
`getElem?_decStep`), and use key word `i` in lane `i` (`Context.laneKey_of_lt`). -/
theorem stepsUpdateEachLane : Obligations.StepsUpdateEachLane := by
  intro c ws s _
  refine ⟨length_encStep c ws s, length_decStep c ws s, fun i hi w hw => ⟨?_, ?_, Context.laneKey_of_lt hi⟩⟩
  · rw [getElem?_encStep, hw]
    rfl
  · rw [getElem?_decStep, hw]
    rfl

end Sys2Proof.Machine
end

section
/-! The padding codec (42_padding.md): the pad length (R140), the bytes of a framed message (R143, R146), and what each
decoder gives for any buffer (R144, R147). -/

namespace Sys2Proof.Machine

/-! ### The pad length (R140) -/

theorem padLen_lt (l : Nat) {b : Nat} (hb : 0 < b) : padLen l b < b :=
  Nat.mod_lt _ hb

theorem padLen_of_aligned {l b : Nat} (h : l % b = 0) : padLen l b = 0 := by
  rw [padLen, h, Nat.sub_zero, Nat.mod_self]

/-- The outer `mod` of R140 matters at an aligned length only. -/
theorem padLen_of_unaligned {l b : Nat} (hb : 0 < b) (h : l % b ≠ 0) : padLen l b = b - l % b :=
  Nat.mod_eq_of_lt (Nat.sub_lt hb (Nat.pos_of_ne_zero h))

/-- The padded length is a multiple of the block size. -/
theorem add_padLen_mod (l : Nat) {b : Nat} (hb : 0 < b) : (l + padLen l b) % b = 0 := by
  by_cases h : l % b = 0
  · rw [padLen_of_aligned h, Nat.add_zero, h]
  · have hlt : l % b < b := Nat.mod_lt l hb
    calc (l + padLen l b) % b
        = (l % b + (b - l % b)) % b := by rw [padLen_of_unaligned hb h, Nat.mod_add_mod]
      _ = 0 := by rw [Nat.add_sub_cancel' hlt.le, Nat.mod_self]

/-- No multiple of the block size from `l` up stands below the padded length: the two multiples differ by whole blocks, and
the pad is shorter than one. -/
theorem add_padLen_le {l b n : Nat} (hb : 0 < b) (hl : l ≤ n) (hn : n % b = 0) : l + padLen l b ≤ n := by
  by_contra hgt
  have hpad : padLen l b < b := padLen_lt l hb
  have hdvd : b ∣ l + padLen l b - n :=
    Nat.dvd_sub (Nat.dvd_of_mod_eq_zero (add_padLen_mod l hb)) (Nat.dvd_of_mod_eq_zero hn)
  have hblock : b ≤ l + padLen l b - n := Nat.le_of_dvd (by omega) hdvd
  omega

/-- Settles O47: the bound, the aligned and the unaligned length, and the next block boundary, each a lemma about
`padLen`. -/
theorem padLenReachesBlockBoundary : Obligations.PadLenReachesBlockBoundary := fun l _ hb =>
  ⟨rfl, padLen_lt l hb, add_padLen_mod l hb, padLen_of_aligned, padLen_of_unaligned hb, fun _ => add_padLen_le hb⟩

/-! ### The framed message (R143, R146) -/

theorem byteAt_append_of_lt {a : List Byte} {i : Nat} (h : i < a.length) (b : List Byte) :
    byteAt (a ++ b) i = byteAt a i := by
  rw [byteAt_append, if_pos h]

theorem byteAt_append_replicate {a : List Byte} {n i : Nat} (v : Byte) (hi : a.length ≤ i) (hn : i < a.length + n) :
    byteAt (a ++ List.replicate n v) i = v := by
  rw [byteAt_append, if_neg (Nat.not_lt.mpr hi), byteAt_replicate, if_pos (by omega)]

theorem byteAt_ltPad_of_lt (b : Nat) {m : List Byte} {i : Nat} (h : i < m.length) :
    byteAt (ltPad b m) i = byteAt m i :=
  byteAt_append_of_lt h _

theorem byteAt_zpPad_of_lt (b : Nat) {m : List Byte} {i : Nat} (h : i < m.length) :
    byteAt (zpPad b m) i = byteAt m i :=
  byteAt_append_of_lt h _

/-- The pad length fits in a byte for every block size up to 256, so a pad byte of LengthTagPadding is the pad length
itself. -/
theorem toNat_byteAt_ltPad_of_ge {b : Nat} {m : List Byte} {i : Nat} (hb : 0 < b) (hb' : b ≤ 256) (hi : m.length ≤ i)
    (hn : i < m.length + padLen m.length b) : (byteAt (ltPad b m) i).toNat = padLen m.length b := by
  have hlt : padLen m.length b < 2 ^ 8 := (padLen_lt m.length hb).trans_le hb'
  rw [ltPad, byteAt_append_replicate _ hi hn, BitVec.toNat_ofNat, Nat.mod_eq_of_lt hlt]

theorem byteAt_zpPad_of_ge {b : Nat} {m : List Byte} {i : Nat} (hi : m.length ≤ i)
    (hn : i < m.length + padLen m.length b) : byteAt (zpPad b m) i = 0#8 :=
  byteAt_append_replicate _ hi hn

theorem ltPad_of_padLen_eq_zero {b : Nat} {m : List Byte} (h : padLen m.length b = 0) : ltPad b m = m := by
  rw [ltPad, h, List.replicate_zero, List.append_nil]

theorem zpPad_of_padLen_eq_zero {b : Nat} {m : List Byte} (h : padLen m.length b = 0) : zpPad b m = m := by
  rw [zpPad, h, List.replicate_zero, List.append_nil]

/-- Settles O48: the padded length is the boundary of R140 (`add_padLen_mod`, `add_padLen_le`), and the bytes are those of
the message below `L` and the pad value from there up. -/
theorem padBytesOfBothModes : Obligations.PadBytesOfBothModes := by
  intro b m hsize
  have hb : 0 < b := by omega
  have hb' : b ≤ 256 := by omega
  exact ⟨length_ltPad b m, length_zpPad b m, add_padLen_mod _ hb, fun _ => add_padLen_le hb,
    fun h => ⟨ltPad_of_padLen_eq_zero h, zpPad_of_padLen_eq_zero h⟩,
    fun _ hi => ⟨byteAt_ltPad_of_lt b hi, byteAt_zpPad_of_lt b hi⟩,
    fun _ hi hn => ⟨toNat_byteAt_ltPad_of_ge hb hb' hi hn, byteAt_zpPad_of_ge hi hn⟩⟩

/-! ### The decoders (R144, R147) -/

theorem ltUnpad_of_length_eq_zero {x : List Byte} (h : x.length = 0) : ltUnpad x = .ok x := by
  rw [ltUnpad, if_pos h]

/-- A last byte above the length is refused. -/
theorem ltUnpad_of_length_lt {x : List Byte} (h0 : 0 < x.length)
    (h : x.length < (byteAt x (x.length - 1)).toNat) : ltUnpad x = .error .invalidPadding := by
  rw [ltUnpad, if_neg h0.ne', if_pos h]

/-- A last byte within the length is the number of bytes dropped. -/
theorem ltUnpad_of_le_length {x : List Byte} (h0 : 0 < x.length)
    (h : (byteAt x (x.length - 1)).toNat ≤ x.length) :
    ltUnpad x = .ok (x.take (x.length - (byteAt x (x.length - 1)).toNat)) := by
  rw [ltUnpad, if_neg h0.ne', if_neg (Nat.not_lt.mpr h)]

/-- ZP_UNPAD keeps the prefix that ends at the last byte that is not 0x00. -/
theorem zpUnpad_spec (x : List Byte) :
    ∃ n, n ≤ x.length ∧ zpUnpad x = x.take n ∧ (∀ i, n ≤ i → i < x.length → byteAt x i = 0#8)
      ∧ (0 < n → byteAt x (n - 1) ≠ 0#8) := by
  obtain ⟨hle, hzeros, hlast⟩ := stripZeros_spec x x.length
  exact ⟨stripZeros x x.length, hle, rfl, hzeros, hlast⟩

/-- Settles O49: the three cases of LT_UNPAD by the last byte, and `zpUnpad_spec`. -/
theorem unpadRulesOfBothModes : Obligations.UnpadRulesOfBothModes := by
  intro x
  obtain ⟨n, hle, htake, hzeros, hlast⟩ := zpUnpad_spec x
  refine ⟨ltUnpad_of_length_eq_zero, ?_, n, hle, htake, hzeros, n.eq_zero_or_pos.imp_right hlast⟩
  rintro _ h0 rfl
  exact ⟨ltUnpad_of_length_lt h0, ltUnpad_of_le_length h0⟩

end Sys2Proof.Machine
end

section
/-! The commands and their checks (43_commands.md): the illegal command word (R190), the four checks of CONFIGURE (R163), the
checks ENCRYPT and DECRYPT share (R164), and the length rules of both (R171, R181). -/

namespace Sys2Proof.Machine

/-! ### A command that ends in an error (R162, 60_exceptions.md R203) -/

theorem exec_configure_of_error {s : State} {e : ErrKind} (h : configureResult s = .error e) :
    exec .configure s = .next { s with err := e.code } := by
  simp only [exec, execConfigure, h, State.raise_configure]

theorem exec_encrypt_of_error {s : State} {e : ErrKind} (h : encryptResult s = .error e) :
    exec .encrypt s = .next { s with outlen := 0#64, err := e.code } := by
  simp only [exec, execEncrypt, h, State.raise_message]

theorem exec_decrypt_of_error {s : State} {e : ErrKind} (h : decryptResult s = .error e) :
    exec .decrypt s = .next { s with outlen := 0#64, err := e.code } := by
  simp only [exec, execDecrypt, h, State.raise_message]

/-! ### A command that succeeds -/

theorem exec_encrypt_of_ok {s : State} {y : List Byte} (h : encryptResult s = .ok y) :
    exec .encrypt s = .next ((s.writeBytes dataBase y).setOutlen y.length).succeed := by
  simp only [exec, execEncrypt, h]

theorem exec_decrypt_of_ok {s : State} {x z : List Byte} (h : decryptResult s = .ok (x, z)) :
    exec .decrypt s = .next ((s.writeBytes dataBase x).setOutlen z.length).succeed := by
  simp only [exec, execDecrypt, h]

/-! ### Illegal command words (R190) -/

theorem runWord_of_illegal {c : Word} (h : decode c = .illegalCommand) (s : State) :
    runWord c s = .next { s with err := 8#8 } := by
  simp only [runWord, h, illegalWord, State.raise_illegalWord, ErrKind.code]

theorem step_illegalWord {s : State} {rest : List HostEvent} {c : Word} (hr : s.resetAsserted = false)
    (hp : s.pending = w64 0x000 c :: rest) (hc : decode c = .illegalCommand) :
    step s = .next { s with pending := rest, err := 8#8 } := by
  rw [step_w64 hr (by decide) (by decide) hp, (locate_cmd_iff _ _).mpr rfl, writeLocation, runWord_of_illegal hc]
  rfl

/-- Settles O5: the step is the illegal write (`step_illegalWord`), and a word that is no command's encoding is illegal
(`decode_of_ne_encode`). -/
theorem illegalWordOnlyWritesErr : Obligations.IllegalWordOnlyWritesErr := by
  have hillegal : ∀ c : Word, c ≠ 1#64 → c ≠ 2#64 → c ≠ 3#64 → decode c = .illegalCommand :=
    fun c h1 h2 h3 => decode_of_ne_encode (forall_ne_encode_iff.mpr ⟨h1, h2, h3⟩)
  refine ⟨fun s rest c hr hp hc => step_illegalWord hr hp hc, hillegal,
    hillegal _ (by decide) (by decide) (by decide), hillegal _ (by decide) (by decide) (by decide),
    fun s rest hr hv hp => ⟨_, step_illegalWord hr hp (hillegal _ (by decide) (by decide) (by decide)), ?_⟩⟩
  simp [statusWord, hv]

/-! ### The checks of CONFIGURE (R163) -/

theorem configureResult_of_blockSize {s : State} (h : isBlockBits s.bsz.toNat = false) :
    configureResult s = .error .invalidBlockSize := by
  rw [configureResult_eq, if_pos h]

theorem configureResult_of_keyLength {s : State} (hb : isBlockBits s.bsz.toNat = true)
    (h : s.keylen.toNat ≠ s.bsz.toNat / 8) : configureResult s = .error .invalidKeyLength := by
  rw [configureResult_eq, if_neg (by simp [hb]), if_pos h]

theorem configureResult_of_tweakLength {s : State} (hb : isBlockBits s.bsz.toNat = true)
    (hk : s.keylen.toNat = s.bsz.toNat / 8) (h : s.twlen.toNat ≠ 16) :
    configureResult s = .error .invalidTweakLength := by
  rw [configureResult_eq, if_neg (by simp [hb]), if_neg (not_not.mpr hk), if_pos h]

theorem configureResult_of_paddingMode {s : State} (hb : isBlockBits s.bsz.toNat = true)
    (hk : s.keylen.toNat = s.bsz.toNat / 8) (ht : s.twlen.toNat = 16) (h : 2 < s.pmode.toNat) :
    configureResult s = .error .invalidPaddingMode := by
  rw [configureResult_eq, if_neg (by simp [hb]), if_neg (not_not.mpr hk), if_neg (not_not.mpr ht),
    PadMode.ofWord_eq_none.mpr h]

/-- Settles O22: one lemma for each check that can be the first to fail. -/
theorem configureRaisesFirstError : Obligations.ConfigureRaisesFirstError := by
  intro s
  refine ⟨fun hb => exec_configure_of_error (configureResult_of_blockSize ((isBlockBits_false_iff _).mpr hb)),
    fun hbits => ?_⟩
  have hb : isBlockBits s.bsz.toNat = true := (isBlockBits_iff _).mpr hbits
  exact ⟨fun hk => exec_configure_of_error (configureResult_of_keyLength hb hk),
    fun hk => ⟨fun ht => exec_configure_of_error (configureResult_of_tweakLength hb hk ht),
      fun ht hm => exec_configure_of_error (configureResult_of_paddingMode hb hk ht hm)⟩⟩

/-! ### The checks ENCRYPT and DECRYPT share (R164) -/

theorem messageError_of_noContext {s : State} (h : s.ctx.valid = false) : messageError s = some .noContext :=
  if_pos h

theorem messageError_of_capacityExceeded {s : State} (hv : s.ctx.valid = true) (h : s.dataBytes < s.len.toNat) :
    messageError s = some .capacityExceeded := by
  rw [messageError, if_neg (by simp [hv]), if_pos h]

theorem messageError_eq_none {s : State} (hv : s.ctx.valid = true) (hl : s.len.toNat ≤ s.dataBytes) :
    messageError s = none := by
  rw [messageError, if_neg (by simp [hv]), if_neg (Nat.not_lt.mpr hl)]

/-- Both message commands make the shared checks before anything else. -/
theorem exec_of_messageError {i : Instr} {s : State} {e : ErrKind} (hi : i = .encrypt ∨ i = .decrypt)
    (h : messageError s = some e) : exec i s = .next { s with outlen := 0#64, err := e.code } := by
  rcases hi with rfl | rfl
  · exact exec_encrypt_of_error (by simp only [encryptResult, h])
  · exact exec_decrypt_of_error (by simp only [decryptResult, h])

/-- Settles O29: the two answers of the shared checks, which both commands raise (`exec_of_messageError`). -/
theorem messageCommandsCheckContextThenCapacity : Obligations.MessageCommandsCheckContextThenCapacity :=
  fun _ _ hi => ⟨fun hv => exec_of_messageError hi (messageError_of_noContext hv),
    fun hv hl => exec_of_messageError hi (messageError_of_capacityExceeded hv hl)⟩

/-! ### The length rule of ENCRYPT (R171) -/

theorem encryptResult_of_frame_error {s : State} {e : ErrKind} (hm : messageError s = none)
    (hf : frameMessage s.ctx.pmode s.ctx.blockBytes (s.dataPrefix s.len.toNat) = .error e) :
    encryptResult s = .error e := by
  simp only [encryptResult, hm, hf]

theorem encryptResult_of_frame_ok {s : State} {x : List Byte} (hm : messageError s = none)
    (hf : frameMessage s.ctx.pmode s.ctx.blockBytes (s.dataPrefix s.len.toNat) = .ok x) :
    encryptResult s = .ok (encBlocks s.ctx s.ctx.blockBytes x) := by
  simp only [encryptResult, hm, hf]

theorem frameMessage_noPadding_of_length_ne {b : Nat} {m : List Byte} (h : m.length ≠ b) :
    frameMessage .noPadding b m = .error .invalidInputLength :=
  if_neg h

theorem encryptResult_of_noPadding_length_ne {s : State} (hm : messageError s = none) (hmode : s.ctx.pmode = .noPadding)
    (hlen : s.len.toNat ≠ s.ctx.blockBytes) : encryptResult s = .error .invalidInputLength := by
  refine encryptResult_of_frame_error hm ?_
  rw [hmode, frameMessage_noPadding_of_length_ne (by rwa [State.length_dataPrefix])]

/-- The padded modes frame every message. -/
theorem frameMessage_of_padded {mode : PadMode} (h : mode ≠ .noPadding) (b : Nat) (m : List Byte) :
    ∃ x, frameMessage mode b m = .ok x := by
  cases mode with
  | noPadding => exact absurd rfl h
  | lengthTag => exact ⟨_, rfl⟩
  | zeroPadding => exact ⟨_, rfl⟩

/-- Settles O30: past the shared checks ENCRYPT fails exactly where the framing does, and that is mode None on a length other
than one block. -/
theorem encryptLengthRule : Obligations.EncryptLengthRule := by
  intro s hv hl
  have hm : messageError s = none := messageError_eq_none hv hl
  refine ⟨fun hmode hlen => exec_encrypt_of_error (encryptResult_of_noPadding_length_ne hm hmode hlen), fun hmode => ?_⟩
  obtain ⟨x, hx⟩ := frameMessage_of_padded hmode s.ctx.blockBytes (s.dataPrefix s.len.toNat)
  exact ⟨_, exec_encrypt_of_ok (encryptResult_of_frame_ok hm hx), rfl⟩

/-! ### The length rule of DECRYPT (R181) -/

theorem decryptResult_of_length_error {s : State} (hm : messageError s = none)
    (hd : ¬ ((s.ctx.pmode = .noPadding → s.len.toNat = s.ctx.blockBytes) ∧ s.len.toNat % s.ctx.blockBytes = 0)) :
    decryptResult s = .error .invalidInputLength := by
  rw [← decryptLengthOk_iff, Bool.not_eq_true] at hd
  simp only [decryptResult, hm, hd, if_true]

theorem decryptResult_of_unframe_ok {s : State} {x z : List Byte} (hm : messageError s = none)
    (hd : decryptLengthOk s.ctx s.len.toNat = true)
    (hx : decBlocks s.ctx s.ctx.blockBytes (s.dataPrefix s.len.toNat) = x)
    (hu : unframeMessage s.ctx.pmode s.ctx.blockBytes x = .ok z) : decryptResult s = .ok (x, z) := by
  simp only [decryptResult, hm, hd, hx, hu, Bool.true_eq_false, if_false]

@[simp] theorem State.dataPrefix_zero (s : State) : s.dataPrefix 0 = [] := rfl

/-- A ciphertext of length 0 has no block. -/
@[simp] theorem decBlocks_nil (c : Context) (size : Nat) : decBlocks c size [] = [] := by
  rw [decBlocks, List.length_nil, Nat.zero_div, mapBlocks]

/-- The padded modes find the empty message in an empty buffer. -/
theorem unframeMessage_nil_of_padded {mode : PadMode} (h : mode ≠ .noPadding) (b : Nat) :
    unframeMessage mode b [] = .ok [] := by
  cases mode with
  | noPadding => exact absurd rfl h
  | lengthTag => rfl
  | zeroPadding => rfl

theorem decryptResult_of_len_zero {s : State} (hm : messageError s = none) (hmode : s.ctx.pmode ≠ .noPadding)
    (h0 : s.len.toNat = 0) : decryptResult s = .ok ([], []) := by
  have hd : decryptLengthOk s.ctx s.len.toNat = true :=
    (decryptLengthOk_iff _ _).mpr ⟨fun h => absurd h hmode, by rw [h0, Nat.zero_mod]⟩
  exact decryptResult_of_unframe_ok hm hd (by rw [h0, State.dataPrefix_zero, decBlocks_nil])
    (unframeMessage_nil_of_padded hmode _)

/-- Settles O32: past the shared checks a length that breaks the rule is the error (`decryptResult_of_length_error`), and
length 0 in a padded mode decrypts no block and writes no byte (`decryptResult_of_len_zero`). -/
theorem decryptLengthRule : Obligations.DecryptLengthRule := by
  intro s hv hl
  have hm : messageError s = none := messageError_eq_none hv hl
  exact ⟨fun hmode hlen => exec_decrypt_of_error (decryptResult_of_length_error hm fun ⟨hone, _⟩ => hlen (hone hmode)),
    fun _ hlen => exec_decrypt_of_error (decryptResult_of_length_error hm fun ⟨_, hwhole⟩ => hlen hwhole),
    fun hmode h0 => exec_decrypt_of_ok (decryptResult_of_len_zero hm hmode h0)⟩

end Sys2Proof.Machine
end

section
/-! The context CONFIGURE builds (43_commands.md R165, 40_schedules.md R101, R106): its key slots, its tweak words byte by
byte, and that it is well formed. -/

namespace Sys2Proof.Machine

/-! ### Key slots (10_state.md R30) -/

/-- A slot holds the word of the schedule at its index, and 0 beyond the schedule. -/
theorem Context.keyWord_keySlots {c : Context} {ks : List Word} (hk : c.k = keySlots ks) (hlen : ks.length ≤ 17)
    (j : Nat) : c.keyWord j = ks.getD j 0#64 := by
  simp only [Context.keyWord, hk, keySlots, Vector.toList_ofFn, List.getD_eq_getElem?_getD, List.getElem?_ofFn]
  split
  · rfl
  · rw [List.getElem?_eq_none (by omega)]

/-- The block sizes of R163 in words: 4, 8 or 16, and a word takes 64 bits. -/
theorem blockBits_div {n : Nat} (h : n = 256 ∨ n = 512 ∨ n = 1024) : n / 8 / 8 = n / 64 ∧ n / 64 ≤ 16 := by
  omega

section Staged
variable {s : State} {mode : PadMode}

/-- The raw key words of the staged context. -/
def stagedKey (s : State) : List Word := wordsOf (s.keyBytes (s.bsz.toNat / 8)) (s.bsz.toNat / 8 / 8)

theorem stagedContext_k : (stagedContext s mode).k = keySlots (stagedKey s ++ [parityWord (stagedKey s)]) := rfl

theorem length_stagedKey : (stagedKey s).length = (stagedContext s mode).wc := length_wordsOf _ _

variable (hb : s.bsz.toNat = 256 ∨ s.bsz.toNat = 512 ∨ s.bsz.toNat = 1024)
include hb

theorem stagedContext_wc : (stagedContext s mode).wc = s.bsz.toNat / 64 := (blockBits_div hb).1

theorem stagedContext_wc_le : (stagedContext s mode).wc ≤ 16 := stagedContext_wc hb ▸ (blockBits_div hb).2

theorem stagedContext_keyWord (j : Nat) :
    (stagedContext s mode).keyWord j = (stagedKey s ++ [parityWord (stagedKey s)]).getD j 0#64 := by
  refine Context.keyWord_keySlots stagedContext_k ?_ j
  have := stagedContext_wc_le (mode := mode) hb
  rw [List.length_append, length_stagedKey (mode := mode), List.length_singleton]
  omega

/-- Below `wc` stand the raw key words (R101). -/
theorem stagedContext_keyWord_of_lt {j : Nat} (hj : j < (stagedContext s mode).wc) :
    (stagedContext s mode).keyWord j = le64Get (s.keyBytes (s.bsz.toNat / 8)) (8 * j) := by
  rw [stagedContext_keyWord hb, List.getD_eq_getElem?_getD,
    List.getElem?_append_left (by rwa [length_stagedKey (mode := mode)]), stagedKey,
    getElem?_wordsOf _ (show j < s.bsz.toNat / 8 / 8 from hj)]
  rfl

theorem map_keyWord_stagedContext :
    (List.range (stagedContext s mode).wc).map (stagedContext s mode).keyWord = stagedKey s :=
  List.map_congr_left fun _ hj => stagedContext_keyWord_of_lt hb (List.mem_range.mp hj)

/-- At `wc` stands the parity word of the words below (R102). -/
theorem stagedContext_keyWord_wc :
    (stagedContext s mode).keyWord (stagedContext s mode).wc
      = parityWord ((List.range (stagedContext s mode).wc).map (stagedContext s mode).keyWord) := by
  rw [map_keyWord_stagedContext hb, stagedContext_keyWord hb, ← length_stagedKey (mode := mode),
    List.getD_eq_getElem?_getD, List.getElem?_concat_length]
  rfl

/-- Above `wc` every slot is 0. -/
theorem stagedContext_keyWord_of_gt {j : Nat} (hj : (stagedContext s mode).wc < j) :
    (stagedContext s mode).keyWord j = 0#64 := by
  rw [stagedContext_keyWord hb, List.getD_eq_getElem?_getD, List.getElem?_eq_none]
  · rfl
  · rw [List.length_append, length_stagedKey (mode := mode), List.length_singleton]
    omega

theorem stagedContext_wf : (stagedContext s mode).Wf :=
  (if_pos (show (stagedContext s mode).valid = true from rfl)).mpr
    ⟨hb, stagedContext_wc hb, stagedContext_keyWord_wc hb, fun _ _ => stagedContext_keyWord_of_gt hb⟩

end Staged

/-! ### CONFIGURE (R165) -/

/-- Byte `m` of a word decoded from bytes that were read is the byte that was read. -/
theorem extractLsb'_le64Get_readBytes (s : State) {a n o m : Nat} (ho : o + 8 ≤ n) (hm : m < 8) :
    (le64Get (s.readBytes a n) o).extractLsb' (8 * m) 8 = s.readByte (a + (o + m)) := by
  rw [extractLsb'_le64Get _ _ hm, State.byteAt_readBytes s a (by omega)]

/-- `PMODE` 0, 1 and 2 encode a mode (30_encoding.md R74). -/
theorem PadMode.exists_code_eq {w : Word} (h : w.toNat ≤ 2) : ∃ mode : PadMode, mode.code = w := by
  cases hm : PadMode.ofWord w with
  | none => exact absurd (PadMode.ofWord_eq_none.mp hm) (by omega)
  | some mode => exact ⟨mode, PadMode.ofWord_eq_some.mp hm⟩

theorem exec_configure_of_ok {s : State} {c : Context} (h : configureResult s = .ok c) :
    exec .configure s = .next { s with ctx := c, err := 0#8 } := by
  simp only [exec, execConfigure, h]
  rfl

/-- Settles O21: the checks pass, so CONFIGURE stores the staged context (`configureResult_of_checks`), whose key slots are
given below, at and above `wc` by the lemmas of this section. -/
theorem configureBuildsContext : Obligations.ConfigureBuildsContext := by
  intro s hb hk ht hp
  obtain ⟨mode, hmode⟩ := PadMode.exists_code_eq hp
  have hok : configureResult s = .ok (stagedContext s mode) :=
    configureResult_of_checks ((isBlockBits_iff _).mpr hb) hk ht hmode
  refine ⟨stagedContext s mode, exec_configure_of_ok hok, rfl, rfl, stagedContext_wc hb, hmode, fun j hj m hm => ?_,
    stagedContext_keyWord_wc hb, fun j hj _ => stagedContext_keyWord_of_gt hb hj,
    fun m hm => ?_, fun m hm => extractLsb'_le64Get_readBytes s (Nat.le_refl 16) hm⟩
  · rw [stagedContext_keyWord_of_lt hb hj]
    have hwc := stagedContext_wc (mode := mode) hb
    exact extractLsb'_le64Get_readBytes s (by omega) hm
  · have hbyte := extractLsb'_le64Get_readBytes s (a := twbufBase) (o := 0) (Nat.le_add_left 8 8) hm
    rwa [Nat.zero_add] at hbyte

end Sys2Proof.Machine
end

section
/-! Whole blocks of a message (43_commands.md R170, R180): the block size of a well-formed context, and the lengths of what
ENCRYPT and DECRYPT commit. -/

namespace Sys2Proof.Machine

/-! ### The block size -/

theorem Context.wf_iff_of_valid {c : Context} (hv : c.valid = true) :
    c.Wf ↔ (c.bits = 256 ∨ c.bits = 512 ∨ c.bits = 1024) ∧ c.wc = c.bits / 64
      ∧ c.keyWord c.wc = parityWord ((List.range c.wc).map c.keyWord)
      ∧ ∀ j, j < 17 → c.wc < j → c.keyWord j = 0#64 := by
  rw [Context.Wf, if_pos hv]

/-- A block of a well-formed context is 32, 64 or 128 bytes. -/
theorem Context.blockBytes_cases {c : Context} (hv : c.valid = true) (hwf : c.Wf) :
    c.blockBytes = 32 ∨ c.blockBytes = 64 ∨ c.blockBytes = 128 := by
  obtain ⟨hbits, _⟩ := (Context.wf_iff_of_valid hv).mp hwf
  unfold Context.blockBytes
  omega

theorem Context.blockBytes_pos {c : Context} (hv : c.valid = true) (hwf : c.Wf) : 0 < c.blockBytes := by
  rcases Context.blockBytes_cases hv hwf with h | h | h <;> rw [h] <;> decide

/-- A block of a well-formed context is `wc` words of 8 bytes. -/
theorem Context.blockBytes_eq {c : Context} (hv : c.valid = true) (hwf : c.Wf) : c.blockBytes = 8 * c.wc := by
  obtain ⟨hbits, hwc, _⟩ := (Context.wf_iff_of_valid hv).mp hwf
  unfold Context.blockBytes
  omega

/-- `DATA` holds whole blocks of every size, so a padded message fits where the message does. -/
theorem State.add_padLen_le_dataBytes {s : State} {l b : Nat} (hb : b = 32 ∨ b = 64 ∨ b = 128) (hl : l ≤ s.dataBytes) :
    l + padLen l b ≤ s.dataBytes := by
  have hunits : s.dataBytes % 128 = 0 := Config_dataBytes_dvd s.params
  exact add_padLen_le (by omega) hl (by rcases hb with rfl | rfl | rfl <;> omega)

theorem State.dataBytes_lt (s : State) : s.dataBytes < 2 ^ 64 :=
  (Config_dataBytes_le s.params).trans_lt (by decide)

/-! ### Lengths -/

theorem length_encBlocks {c : Context} {size : Nat} {x : List Byte} (hs : size = 8 * c.wc) (hx : x.length % size = 0) :
    (encBlocks c size x).length = x.length := by
  subst hs
  rw [encBlocks, length_mapBlocks (length_encBlockBytes c), Nat.div_mul_cancel (Nat.dvd_of_mod_eq_zero hx)]

theorem length_decBlocks {c : Context} {size : Nat} {x : List Byte} (hs : size = 8 * c.wc) (hx : x.length % size = 0) :
    (decBlocks c size x).length = x.length := by
  subst hs
  rw [decBlocks, length_mapBlocks (length_decBlockBytes c), Nat.div_mul_cancel (Nat.dvd_of_mod_eq_zero hx)]

/-- The framed message is whole blocks. -/
theorem length_frameMessage_mod {mode : PadMode} {b : Nat} {m x : List Byte} (hb : 0 < b)
    (h : frameMessage mode b m = .ok x) : x.length % b = 0 := by
  rw [(frameMessage_ok h).1, add_padLen_mod _ hb]

/-- What ENCRYPT commits is the padded message's length and fits in `DATA`. -/
theorem encryptResult_ok_length {s : State} {y : List Byte} (hwf : s.ctx.Wf) (h : encryptResult s = .ok y) :
    y.length = s.len.toNat + padLen s.len.toNat s.ctx.blockBytes ∧ y.length ≤ s.dataBytes := by
  rcases encryptResult_cases s with ⟨e, _, he⟩ | ⟨_, _, _, _, he⟩ | ⟨hv, hl, _, x, hf, hx⟩
  · cases h.symm.trans he
  · cases h.symm.trans he
  · cases h.symm.trans hx
    have hb := Context.blockBytes_cases hv hwf
    have hlen : (encBlocks s.ctx s.ctx.blockBytes x).length = s.len.toNat + padLen s.len.toNat s.ctx.blockBytes := by
      rw [length_encBlocks (Context.blockBytes_eq hv hwf) (length_frameMessage_mod (by omega) hf), (frameMessage_ok hf).1,
        State.length_dataPrefix]
    exact ⟨hlen, hlen.trans_le (State.add_padLen_le_dataBytes hb hl)⟩

/-- What DECRYPT commits is as long as the ciphertext, which fits in `DATA`; the message in it is no longer. -/
theorem decryptResult_ok_length {s : State} {x z : List Byte} (hwf : s.ctx.Wf) (h : decryptResult s = .ok (x, z)) :
    x.length = s.len.toNat ∧ z.length ≤ x.length ∧ x.length ≤ s.dataBytes := by
  rcases decryptResult_cases s with
    ⟨e, _, he⟩ | ⟨_, _, _, he⟩ | ⟨hv, hl, hd, x', hx', ⟨e, _, he⟩ | ⟨z', hu, hz⟩⟩
  · cases h.symm.trans he
  · cases h.symm.trans he
  · cases h.symm.trans he
  · cases h.symm.trans hz
    obtain ⟨n, hn, rfl⟩ := unframeMessage_ok hu
    have hlen : x.length = s.len.toNat := by
      rw [hx', length_decBlocks (Context.blockBytes_eq hv hwf), State.length_dataPrefix]
      rw [State.length_dataPrefix]
      exact ((decryptLengthOk_iff _ _).mp hd).2
    exact ⟨hlen, List.length_take_le' n x, hlen.trans_le hl⟩

end Sys2Proof.Machine
end

section
/-! The invariant of the engine's state: it holds at reset, and every command, access and step keeps it (10_state.md R29, R30,
R34, 70_reset_and_hazards.md R220). -/

namespace Sys2Proof.Machine

/-! ### At reset -/

theorem Context.reset_wf : Context.reset.Wf := rfl

/-- Whatever the level of the reset input and the host's own record, reset values have the invariant. -/
theorem State.inv_of_atReset {s : State} (h : s.AtReset) : s.Inv := by
  rw [h]
  exact ⟨Context.reset_wf, rfl, rfl, Nat.zero_le _, Nat.zero_le 9, fun _ => rfl⟩

/-- Settles O54: `State.resetWith` is at reset values (`State.inv_of_atReset`), and `State.reset` is one of its states. -/
theorem resetHasInvariant : Obligations.ResetHasInvariant :=
  ⟨fun _ _ => State.inv_of_atReset rfl, State.inv_of_atReset rfl⟩

/-! ### While reset is released -/

/-- While reset is released the invariant asks nothing of the reset values. -/
theorem State.inv_of_released {s : State} (hr : s.resetAsserted = false) (hctx : s.ctx.Wf) (hmem : s.mem.wf = true)
    (hbuf : s.mem.inBuffers s.dataBytes = true) (hout : s.outlen.toNat ≤ s.dataBytes) (herr : s.err.toNat ≤ 9) :
    s.Inv :=
  ⟨hctx, hmem, hbuf, hout, herr, fun h => absurd (hr.symm.trans h) (by decide)⟩

theorem ErrKind.code_le (k : ErrKind) : k.code.toNat ≤ 9 := by
  cases k <;> decide

section Released
variable {s : State} (hr : s.resetAsserted = false) (hs : s.Inv)
include hr hs

theorem State.inv_setPending (rest : List HostEvent) : (s.setPending rest).Inv := by
  obtain ⟨hctx, hmem, hbuf, hout, herr, _⟩ := hs
  exact State.inv_of_released hr hctx hmem hbuf hout herr

theorem State.inv_raise (who : RaisedBy) (k : ErrKind) : (s.raise who k).Inv := by
  obtain ⟨hctx, hmem, hbuf, hout, _, _⟩ := hs
  have hkeep : (s.raise who k).dataBytes = s.dataBytes := congrArg Config.Params.dataBytes (s.raise_params who k)
  refine State.inv_of_released (by simpa using hr) (by simpa using hctx) (by simpa using hmem)
    (by simpa [hkeep] using hbuf) ?_ (by simpa using k.code_le)
  cases who with
  | configure => exact hout
  | message => exact Nat.zero_le _
  | illegalWord => exact hout

/-- A command that commits no more bytes than `DATA` holds. -/
theorem State.inv_commit {y : List Byte} {n : Nat} (hy : y.length ≤ s.dataBytes) (hn : n ≤ s.dataBytes) :
    ((s.writeBytes dataBase y).setOutlen n).succeed.Inv := by
  obtain ⟨hctx, hmem, hbuf, _, _, _⟩ := hs
  refine State.inv_of_released hr hctx (Memory.wf_writeAll _ _ hmem) (Memory.inBuffers_writeAll _ hbuf ?_) ?_
    (Nat.zero_le 9)
  · exact fun x hx hx' => (isBufferByte_iff _ _).mpr (.inr (.inr ⟨hx, hx'.trans_le (Nat.add_le_add_left hy _)⟩))
  · exact (BitVec.toNat_ofNat n 64 ▸ Nat.mod_le _ _ : _ ≤ n).trans hn

/-- Every command keeps the invariant: an error leaves a code of R76, CONFIGURE a well-formed context, ENCRYPT and DECRYPT
bytes of `DATA` only. -/
theorem exec_inv {i : Instr} {t : State} (h : exec i s = .next t) : t.Inv := by
  cases i with
  | configure =>
    rcases execConfigure_cases s with ⟨e, _, he⟩ | ⟨c, hc, he⟩ <;> cases h.symm.trans he
    · exact State.inv_raise hr hs _ _
    · obtain ⟨hbits, _, _, mode, _, rfl⟩ := configureResult_ok hc
      obtain ⟨_, hmem, hbuf, hout, _, _⟩ := hs
      exact State.inv_of_released hr (stagedContext_wf ((isBlockBits_iff _).mp hbits)) hmem hbuf hout (Nat.zero_le 9)
  | encrypt =>
    rcases execEncrypt_cases s with ⟨e, _, he⟩ | ⟨y, hy, he⟩ <;> cases h.symm.trans he
    · exact State.inv_raise hr hs _ _
    · have hlen := (encryptResult_ok_length hs.1 hy).2
      exact State.inv_commit hr hs hlen hlen
  | decrypt =>
    rcases execDecrypt_cases s with ⟨e, _, he⟩ | ⟨x, z, hz, he⟩ <;> cases h.symm.trans he
    · exact State.inv_raise hr hs _ _
    · obtain ⟨_, hzx, hx⟩ := decryptResult_ok_length hs.1 hz
      exact State.inv_commit hr hs hx (hzx.trans hx)

/-- Every access keeps the invariant; a word write stays in its buffer because accesses are aligned. -/
theorem performAccess_inv {t : State} {a : Access} (h : performAccess s a = .next t) : t.Inv := by
  have hinv := hs
  obtain ⟨hctx, hmem, hbuf, hout, herr, _⟩ := hs
  obtain ⟨_, h8, ⟨_, w, _, rfl⟩ | ⟨v, _, hw⟩⟩ := performAccess_next h
  · exact State.inv_of_released hr hctx hmem hbuf hout herr
  rcases writeLocation_next hw with ⟨_, ⟨i, _, he⟩ | ⟨_, rfl⟩⟩ | ⟨_, _, _, _, _, rfl⟩ | ⟨x, hl, rfl⟩
  · exact exec_inv hr hinv he
  · exact State.inv_of_released hr hctx hmem hbuf hout (ErrKind.code_le .illegalCommand)
  · exact State.inv_of_released hr hctx hmem hbuf hout herr
  · obtain ⟨rfl, hin⟩ := locate_buffer (Config_dataBytes_dvd s.params) h8 hl
    exact State.inv_of_released hr hctx (Memory.wf_writeAll _ _ hmem) (Memory.inBuffers_writeAll _ hbuf hin) hout herr

end Released

/-- Settles O53: while reset is asserted, and when its input is driven, a step leaves reset values (`State.inv_of_atReset`);
otherwise it is idle or an access, which keeps the invariant (`performAccess_inv`). -/
theorem stepKeepsInvariant : Obligations.StepKeepsInvariant := by
  intro s t hs hstep
  rcases step_next hstep with ⟨_, rfl⟩ | ⟨e, rest, _, ⟨l, _, rfl⟩ | ⟨a, u, _, hu, rfl⟩⟩
  · exact hs
  · rcases (s.setPending rest).driveReset_cases l with ⟨hr, _, hd⟩ | ⟨_, hd⟩ <;> rw [hd]
    · exact State.inv_setPending (s := s) hr hs rest
    · exact State.inv_of_atReset rfl
  · have hlevel : u.resetAsserted = s.resetAsserted := (performAccess_hostSide hu).1
    cases hr : s.resetAsserted with
    | true =>
      rw [State.holdReset_of_asserted (hlevel.trans hr)]
      exact State.inv_of_atReset u.takeReset_atReset
    | false =>
      rw [State.holdReset_of_released (hlevel.trans hr)]
      exact performAccess_inv (s := s.setPending rest) hr (State.inv_setPending hr hs rest) hu

end Sys2Proof.Machine
end

section
/-! What the commands do and leave (43_commands.md R160 to R162, 60_exceptions.md R201, R203): each completes, writes at most
`OUTLEN`, `ERR`, the context and `DATA`, and commits nothing when it fails. -/

namespace Sys2Proof.Machine

/-! ### Everything a command can do -/

/-- The kinds of error a command raises (60_exceptions.md R201). -/
def commandErrors : Instr → List ErrKind
  | .configure => [.invalidBlockSize, .invalidKeyLength, .invalidTweakLength, .invalidPaddingMode]
  | .encrypt => [.invalidInputLength, .noContext, .capacityExceeded]
  | .decrypt => [.invalidInputLength, .invalidPadding, .noContext, .capacityExceeded]

/-- What `State.raise` is told of a command. -/
def raisedByCommand : Instr → RaisedBy
  | .configure => .configure
  | .encrypt => .message
  | .decrypt => .message

theorem messageError_some {s : State} {e : ErrKind} (h : messageError s = some e) :
    e = .noContext ∨ e = .capacityExceeded := by
  rcases messageError_cases s with ⟨_, he⟩ | ⟨_, _, he⟩ | ⟨_, _, he⟩ <;> cases h.symm.trans he
  · exact .inl rfl
  · exact .inr rfl

theorem unframeMessage_error_kind {mode : PadMode} {b : Nat} {x : List Byte} {e : ErrKind}
    (h : unframeMessage mode b x = .error e) : e = .invalidInputLength ∨ e = .invalidPadding := by
  cases mode with
  | noPadding =>
    simp only [unframeMessage, noneUnpad] at h
    split at h <;> cases h
    exact .inl rfl
  | lengthTag =>
    simp only [unframeMessage, ltUnpad] at h
    split at h
    · cases h
    · split at h <;> cases h
      exact .inr rfl
  | zeroPadding => cases h

theorem configureResult_error_mem {s : State} {e : ErrKind} (h : configureResult s = .error e) :
    e ∈ commandErrors .configure := by
  simpa [commandErrors] using configureResult_error h

theorem encryptResult_error_mem {s : State} {e : ErrKind} (h : encryptResult s = .error e) :
    e ∈ commandErrors .encrypt := by
  rcases encryptResult_cases s with ⟨e', hm, he⟩ | ⟨_, _, _, _, he⟩ | ⟨_, _, _, x, _, he⟩ <;> cases h.symm.trans he
  · rcases messageError_some hm with rfl | rfl <;> simp [commandErrors]
  · simp [commandErrors]

theorem decryptResult_error_mem {s : State} {e : ErrKind} (h : decryptResult s = .error e) :
    e ∈ commandErrors .decrypt := by
  rcases decryptResult_cases s with
    ⟨e', hm, he⟩ | ⟨_, _, _, he⟩ | ⟨_, _, _, x, _, ⟨e', hu, he⟩ | ⟨z, _, he⟩⟩ <;> cases h.symm.trans he
  · rcases messageError_some hm with rfl | rfl <;> simp [commandErrors]
  · simp [commandErrors]
  · rcases unframeMessage_error_kind hu with rfl | rfl <;> simp [commandErrors]

/-- Everything a command can do: raise one of its errors, or succeed, CONFIGURE with a new context, ENCRYPT and DECRYPT with
bytes from the start of `DATA` and an `OUTLEN`. -/
theorem exec_cases (i : Instr) (s : State) :
    (∃ e ∈ commandErrors i, exec i s = .next (s.raise (raisedByCommand i) e))
      ∨ (i = .configure ∧ ∃ c, exec i s = .next (s.setCtx c).succeed)
      ∨ ((i = .encrypt ∨ i = .decrypt)
          ∧ ∃ y n, exec i s = .next ((s.writeBytes dataBase y).setOutlen n).succeed) := by
  cases i with
  | configure =>
    rcases execConfigure_cases s with ⟨e, he, hx⟩ | ⟨c, _, hx⟩
    · exact .inl ⟨e, configureResult_error_mem he, hx⟩
    · exact .inr (.inl ⟨rfl, c, hx⟩)
  | encrypt =>
    rcases execEncrypt_cases s with ⟨e, he, hx⟩ | ⟨y, _, hx⟩
    · exact .inl ⟨e, encryptResult_error_mem he, hx⟩
    · exact .inr (.inr ⟨.inl rfl, y, _, hx⟩)
  | decrypt =>
    rcases execDecrypt_cases s with ⟨e, he, hx⟩ | ⟨x, z, _, hx⟩
    · exact .inl ⟨e, decryptResult_error_mem he, hx⟩
    · exact .inr (.inr ⟨.inr rfl, x, _, hx⟩)

/-- Settles O25: each of the three ends of `exec_cases` is a next state. -/
theorem everyCommandCompletes : Obligations.EveryCommandCompletes := by
  intro i s
  rcases exec_cases i s with ⟨e, _, hx⟩ | ⟨_, c, hx⟩ | ⟨_, y, n, hx⟩
  all_goals exact ⟨_, hx⟩

/-! ### What a command leaves (R162) -/

theorem State.raise_raisedByCommand (s : State) (i : Instr) (k : ErrKind) :
    s.raise (raisedByCommand i) k = { s with err := k.code, outlen := if i = .configure then s.outlen else 0#64 } := by
  cases i <;> rfl

/-- Bytes written from the start of `DATA` up leave every byte below it. -/
theorem State.readByte_writeBytes_of_lt (s : State) (bs : List Byte) {a x : Nat} (h : x < a) :
    (s.writeBytes a bs).readByte x = s.readByte x := by
  rw [State.readByte_writeBytes, if_neg (by omega)]

/-- Settles O26: an error and a new context leave the memory, and bytes of `DATA` stand above the other buffers. -/
theorem commandsLeaveHostRegisters : Obligations.CommandsLeaveHostRegisters := by
  intro i s t ht
  rcases exec_cases i s with ⟨e, _, hx⟩ | ⟨_, c, hx⟩ | ⟨_, y, n, hx⟩ <;> cases ht.symm.trans hx
  · exact ⟨by rw [State.raise_raisedByCommand], fun x _ => s.readByte_raise _ _ x⟩
  · exact ⟨rfl, fun x _ => rfl⟩
  · exact ⟨rfl, fun x hx => s.readByte_writeBytes_of_lt y hx⟩

/-- A command leaves in `ERR` 0 or the code of one of its errors. -/
theorem exec_err {i : Instr} {s t : State} (h : exec i s = .next t) : t.err ∈ 0#8 :: (commandErrors i).map ErrKind.code := by
  rcases exec_cases i s with ⟨e, he, hx⟩ | ⟨_, c, hx⟩ | ⟨_, y, n, hx⟩ <;> cases h.symm.trans hx
  · rw [State.raise_err]
    exact List.mem_cons_of_mem _ (List.mem_map_of_mem he)
  all_goals exact List.mem_cons_self

/-- Settles O27: the codes of each command's errors (`exec_err`). -/
theorem commandsRaiseOnlyTheirErrors : Obligations.CommandsRaiseOnlyTheirErrors := by
  intro i s t ht
  have herr := exec_err ht
  refine ⟨?_, ?_, ?_⟩ <;> rintro rfl <;> exact herr

theorem ErrKind.code_ne_zero (k : ErrKind) : k.code ≠ 0#8 := by
  cases k <;> decide

/-- Settles O28: a command that leaves an error ended in `State.raise`, which writes no byte; of those that succeed only
ENCRYPT and DECRYPT write bytes. -/
theorem failedCommandsCommitNothing : Obligations.FailedCommandsCommitNothing := by
  intro i s t ht
  rcases exec_cases i s with ⟨e, _, hx⟩ | ⟨_, c, hx⟩ | ⟨hi, y, n, hx⟩ <;> cases ht.symm.trans hx
  · refine ⟨fun _ => by rw [State.raise_raisedByCommand], ?_⟩
    rintro ⟨x, hne⟩
    exact absurd (s.readByte_raise _ _ x) hne
  · exact ⟨fun hne => absurd rfl hne, fun ⟨x, hne⟩ => absurd rfl hne⟩
  · exact ⟨fun hne => absurd rfl hne, fun _ => ⟨hi, rfl⟩⟩

end Sys2Proof.Machine
end

section
/-! Bytes, words and rotations (00_scope.md R11, R13, 40_schedules.md R100): decoding and encoding undo each other, and a
rotation moves bits, composes and distributes over XOR. -/

namespace Sys2Proof.Machine

/-! ### The little-endian boundary (R13) -/

theorem le64Get_le64Put (w : Word) : le64Get (le64Put w) 0 = w :=
  le64Get_eq_iff.mpr fun m hm => by rw [Nat.zero_add, byteAt_le64Put w hm]

/-- A word decoded at `8j` from the words' bytes is word `j`. -/
theorem le64Get_bytesOf {ws : List Word} {j : Nat} {w : Word} (hw : ws[j]? = some w) :
    le64Get (bytesOf ws) (8 * j) = w :=
  le64Get_eq_iff.mpr fun m hm => by rw [byteAt_bytesOf ws hm hw, byteAt_le64Put w hm]

theorem wordsOf_bytesOf (ws : List Word) : wordsOf (bytesOf ws) ws.length = ws := by
  refine List.ext_getElem? fun j => ?_
  rcases Nat.lt_or_ge j ws.length with hj | hj
  · rw [getElem?_wordsOf _ hj, List.getElem?_eq_getElem hj, le64Get_bytesOf (List.getElem?_eq_getElem hj)]
  · rw [List.getElem?_eq_none (by rwa [length_wordsOf]), List.getElem?_eq_none hj]

theorem bytesOf_wordsOf {b : List Byte} {n : Nat} (hb : b.length = 8 * n) : bytesOf (wordsOf b n) = b := by
  have hlen : (bytesOf (wordsOf b n)).length = 8 * n := by rw [length_bytesOf, length_wordsOf]
  refine bytes_ext (hlen.trans hb.symm) fun i hi => ?_
  have hm : i % 8 < 8 := Nat.mod_lt _ (by decide)
  have hword : (wordsOf b n)[i / 8]? = some (le64Get b (8 * (i / 8))) := getElem?_wordsOf b (by omega)
  have hbyte : byteAt (bytesOf (wordsOf b n)) (8 * (i / 8) + i % 8) = byteAt b (8 * (i / 8) + i % 8) := by
    rw [byteAt_bytesOf _ hm hword, byteAt_le64Put _ hm, extractLsb'_le64Get _ _ hm]
  rwa [Nat.div_add_mod] at hbyte

/-- Settles O45: a word is decoded from its own bytes (`le64Get_le64Put`), and word by word and byte by byte the two sequences
are those they came from (`bytesOf_wordsOf`, `wordsOf_bytesOf`). -/
theorem littleEndianBoundary : Obligations.LittleEndianBoundary :=
  ⟨fun b o _ hm => extractLsb'_le64Get b o hm, le64Get_le64Put, fun _ _ => bytesOf_wordsOf, wordsOf_bytesOf⟩

/-! ### Rotations (R11) -/

/-- Settles O37, by the circular index shift of the library's rotation (`getLsbD_rotl64`). -/
theorem rotateLeftMovesBits : Obligations.RotateLeftMovesBits := fun x _ _ hn hi => getLsbD_rotl64 x hn hi

theorem rotl64_rotl64 (x : Word) {m n : Nat} (hm : m < 64) (hn : n < 64) :
    rotl64 (rotl64 x m) n = rotl64 x ((m + n) % 64) := by
  refine BitVec.eq_of_getLsbD_eq fun i hi => ?_
  have hsum : (m + n) % 64 < 64 := Nat.mod_lt _ (by decide)
  have hmid : (i + (64 - n)) % 64 < 64 := Nat.mod_lt _ (by decide)
  rw [getLsbD_rotl64 _ hn hi, getLsbD_rotl64 x hm hmid, getLsbD_rotl64 x hsum hi]
  congr 1
  omega

theorem rotl64_xor (x y : Word) {n : Nat} (hn : n < 64) : rotl64 (x ^^^ y) n = rotl64 x n ^^^ rotl64 y n := by
  refine BitVec.eq_of_getLsbD_eq fun i hi => ?_
  simp only [BitVec.getLsbD_xor, getLsbD_rotl64 _ hn hi]

theorem rotl64_zero_word {n : Nat} (hn : n < 64) : rotl64 0#64 n = 0#64 := by
  refine BitVec.eq_of_getLsbD_eq fun i hi => ?_
  rw [getLsbD_rotl64 _ hn hi, BitVec.getLsbD_zero, BitVec.getLsbD_zero]

/-- The left rotation undoes the right one too: together they rotate by a multiple of 64. -/
theorem rotl64_rotr64 (x : Word) {n : Nat} (hn : n < 64) : rotl64 (rotr64 x n) n = x := by
  have hsum : ((64 - n) % 64 + n) % 64 = 0 := by omega
  rw [rotr64_eq_rotl64, rotl64_rotl64 x (Nat.mod_lt _ (by decide)) hn, hsum, rotl64_zero]

end Sys2Proof.Machine
end

section
/-! The block transform (41_block_transform.md): the step amounts (R122), the inverse (R127), its lanes one at a time with the
closed form (R130), and what follows from it (R131, R133, 40_schedules.md R105). -/

namespace Sys2Proof.Machine

/-! ### Step amounts (R122) -/

theorem tweakSel_eq (s : Nat) : tweakSel s = s % 3 := by
  unfold tweakSel roundTag
  omega

theorem Context.amt_lt (c : Context) (s : Nat) : c.amt s < 64 := Nat.mod_lt _ (by decide)

theorem Context.amt_of_mod_zero (c : Context) {s : Nat} (h : s % 3 = 0) : c.amt s = c.t0.toNat % 64 := by
  rw [Context.amt, tweakSel_eq, h]
  rfl

theorem Context.amt_of_mod_one (c : Context) {s : Nat} (h : s % 3 = 1) : c.amt s = c.t1.toNat % 64 := by
  rw [Context.amt, tweakSel_eq, h]
  rfl

theorem Context.amt_of_mod_two (c : Context) {s : Nat} (h : s % 3 = 2) : c.amt s = (c.t0 ^^^ c.t1).toNat % 64 := by
  rw [Context.amt, tweakSel_eq, h]
  rfl

/-- The low six bits of the third tweak word are the XOR of those of the other two. -/
theorem toNat_xor_mod (x y : Word) : (x ^^^ y).toNat % 64 = (x.toNat % 64) ^^^ (y.toNat % 64) := by
  rw [BitVec.toNat_xor]
  exact Nat.xor_mod_two_pow (n := 6)

theorem toNat_extractLsb'_six (x : Word) : (x.extractLsb' 0 6).toNat = x.toNat % 64 := by
  rw [BitVec.extractLsb'_toNat, Nat.shiftRight_zero]

/-- Settles O38: the selected tweak word is number `s mod 3`, and a step updates each lane by `encLane`. -/
theorem stepAmountsRepeatTweakBits : Obligations.StepAmountsRepeatTweakBits := by
  intro c s _
  refine ⟨c.amt_lt s, fun h => ⟨c.amt_of_mod_zero h, ?_⟩, fun h => ⟨c.amt_of_mod_one h, ?_⟩,
    fun h => ⟨c.amt_of_mod_two h, ?_, ?_⟩, fun ws i w hw => ?_⟩
  · rw [toNat_extractLsb'_six, c.amt_of_mod_zero h]
  · rw [toNat_extractLsb'_six, c.amt_of_mod_one h]
  · rw [toNat_extractLsb'_six, c.amt_of_mod_two h]
  · rw [c.amt_of_mod_two h, toNat_xor_mod]
  · rw [getElem?_encStep, hw]
    rfl

theorem mod_three_cases (s : Nat) : s % 3 = 0 ∨ s % 3 = 1 ∨ s % 3 = 2 := by
  omega

/-- Tweaks that agree in the low six bits of each word give the same amounts. -/
theorem Context.amt_congr {c d : Context} (h0 : d.t0.toNat % 64 = c.t0.toNat % 64)
    (h1 : d.t1.toNat % 64 = c.t1.toNat % 64) (s : Nat) : d.amt s = c.amt s := by
  rcases mod_three_cases s with h | h | h
  · rw [d.amt_of_mod_zero h, c.amt_of_mod_zero h, h0]
  · rw [d.amt_of_mod_one h, c.amt_of_mod_one h, h1]
  · rw [d.amt_of_mod_two h, c.amt_of_mod_two h, toNat_xor_mod, toNat_xor_mod, h0, h1]

/-! ### The inverse (R127) -/

/-- Steps that are undone one by one are undone in the opposite order. -/
theorem foldl_reverse_undoes {α : Type} {f g : α → Nat → α} (h : ∀ x s, g (f x s) s = x) (ss : List Nat) (x : α) :
    ss.reverse.foldl g (ss.foldl f x) = x := by
  induction ss generalizing x with
  | nil => rfl
  | cons s ss ih => rw [List.reverse_cons, List.foldl_append, List.foldl_cons, List.foldl_cons, List.foldl_nil, ih, h]

theorem decLane_encLane (c : Context) {n : Nat} (hn : n < 64) (i : Nat) (w : Word) :
    decLane c n i (encLane c n i w) = w := by
  rw [decLane, encLane, rotr64_rotl64 _ hn, BitVec.xor_assoc, BitVec.xor_self, BitVec.xor_zero]

theorem encLane_decLane (c : Context) {n : Nat} (hn : n < 64) (i : Nat) (w : Word) :
    encLane c n i (decLane c n i w) = w := by
  rw [decLane, encLane, BitVec.xor_assoc, BitVec.xor_self, BitVec.xor_zero, rotl64_rotr64 _ hn]

theorem decStep_encStep (c : Context) (ws : List Word) (s : Nat) : decStep c (encStep c ws s) s = ws := by
  refine List.ext_getElem? fun i => ?_
  rw [getElem?_decStep, getElem?_encStep, Option.map_map]
  exact (congrArg (Option.map · _) (funext (decLane_encLane c (c.amt_lt s) i))).trans Option.map_id_apply

theorem encStep_decStep (c : Context) (ws : List Word) (s : Nat) : encStep c (decStep c ws s) s = ws := by
  refine List.ext_getElem? fun i => ?_
  rw [getElem?_encStep, getElem?_decStep, Option.map_map]
  exact (congrArg (Option.map · _) (funext (encLane_decLane c (c.amt_lt s) i))).trans Option.map_id_apply

theorem decBlock_encBlock (c : Context) (ws : List Word) : decBlock c (encBlock c ws) = ws :=
  foldl_reverse_undoes (decStep_encStep c) _ ws

theorem encBlock_decBlock (c : Context) (ws : List Word) : encBlock c (decBlock c ws) = ws := by
  have h := foldl_reverse_undoes (encStep_decStep c) (List.range stepCount).reverse ws
  rwa [List.reverse_reverse] at h

/-- Settles O40: each step is undone by the other kind of step, so the steps in the opposite order undo the block
(`foldl_reverse_undoes`). -/
theorem decBlockInvertsEncBlock : Obligations.DecBlockInvertsEncBlock :=
  fun c ws _ => ⟨decBlock_encBlock c ws, encBlock_decBlock c ws⟩

/-! ### One lane through all steps -/

/-- Steps that treat the lanes apart run each lane through its own steps. -/
theorem getElem?_foldl_lanes {step : List Word → Nat → List Word} {lane : Nat → Nat → Word → Word}
    (h : ∀ ws s i, (step ws s)[i]? = (ws[i]?).map (lane s i)) (ss : List Nat) (ws : List Word) (i : Nat) :
    (ss.foldl step ws)[i]? = (ws[i]?).map fun w => ss.foldl (fun v s => lane s i v) w := by
  induction ss generalizing ws with
  | nil => exact Option.map_id_apply.symm
  | cons s ss ih =>
    rw [List.foldl_cons, ih, h, Option.map_map]
    rfl

theorem getElem?_encBlock (c : Context) (ws : List Word) (i : Nat) :
    (encBlock c ws)[i]? = (ws[i]?).map fun w => (List.range 18).foldl (fun v s => encLane c (c.amt s) i v) w :=
  getElem?_foldl_lanes (lane := fun s => encLane c (c.amt s)) (getElem?_encStep c) _ ws i

theorem getElem?_decBlock (c : Context) (ws : List Word) (i : Nat) :
    (decBlock c ws)[i]? = (ws[i]?).map fun w => (List.range 18).reverse.foldl (fun v s => decLane c (c.amt s) i v) w :=
  getElem?_foldl_lanes (lane := fun s => decLane c (c.amt s)) (getElem?_decStep c) _ ws i

/-- The lanes of a block are those below `wc`. -/
theorem lt_wc_of_getElem? {c : Context} {ws : List Word} (hlen : ws.length = c.wc) {i : Nat} {w : Word}
    (hw : ws[i]? = some w) : i < c.wc :=
  hlen ▸ (List.getElem?_eq_some_iff.mp hw).1

/-- The key enters a block through the key words below `wc` and the tweak through the step amounts, in nothing else. -/
theorem blocks_congr {c d : Context} {ws : List Word} (hwc : d.wc = c.wc) (hamt : ∀ s, d.amt s = c.amt s)
    (hkey : ∀ j, j < c.wc → d.keyWord j = c.keyWord j) (hlen : ws.length = c.wc) :
    encBlock d ws = encBlock c ws ∧ decBlock d ws = decBlock c ws := by
  have hlane : ∀ i w, ws[i]? = some w → d.laneKey i = c.laneKey i := by
    intro i w hw
    have hi : i < c.wc := lt_wc_of_getElem? hlen hw
    rw [Context.laneKey_of_lt hi, Context.laneKey_of_lt (hwc ▸ hi), hkey i hi]
  constructor <;> refine List.ext_getElem? fun i => ?_
  · rw [getElem?_encBlock, getElem?_encBlock]
    refine Option.map_congr fun w hw => ?_
    simp only [encLane, hlane i w hw, hamt]
  · rw [getElem?_decBlock, getElem?_decBlock]
    refine Option.map_congr fun w hw => ?_
    simp only [decLane, hlane i w hw, hamt]

/-- Settles O44: the parity word stands at `wc`, outside the key words of `blocks_congr`. -/
theorem parityWordIsNeverUsed : Obligations.ParityWordIsNeverUsed := by
  intro c d ws hwc h0 h1 hkey hlen
  exact blocks_congr hwc (Context.amt_congr (by rw [h0]) (by rw [h1])) hkey hlen

/-! ### The closed form (R130) -/

/-- The rotation of three steps in turn. -/
def Context.turn (c : Context) : Nat :=
  c.t0.toNat % 64 + c.t1.toNat % 64 + ((c.t0.toNat % 64) ^^^ (c.t1.toNat % 64))

/-- The total rotation `S_0` of R130: six turns. -/
def Context.totalRotation (c : Context) : Nat := 6 * c.turn % 64

/-- The suffix sums `S_s` of the step amounts (R130). -/
def IsSuffixSum (c : Context) (sums : Nat → Nat) : Prop :=
  sums 18 = 0 ∧ ∀ s, s < 18 → sums s = (c.amt s + sums (s + 1)) % 64

section SuffixSums
variable {c : Context} {sums : Nat → Nat} (hs : IsSuffixSum c sums)
include hs

theorem IsSuffixSum.lt {s : Nat} (h : s ≤ 18) : sums s < 64 := by
  obtain ⟨hlast, hstep⟩ := hs
  rcases Nat.lt_or_eq_of_le h with hlt | rfl
  · exact hstep s hlt ▸ Nat.mod_lt _ (by decide)
  · rw [hlast]
    decide

theorem IsSuffixSum.turn {q : Nat} (hq : q < 6) : sums (3 * q) = (c.turn + sums (3 * (q + 1))) % 64 := by
  have h0 : sums (3 * q) = (c.amt (3 * q) + sums (3 * q + 1)) % 64 := hs.2 _ (by omega)
  have h1 : sums (3 * q + 1) = (c.amt (3 * q + 1) + sums (3 * q + 2)) % 64 := hs.2 _ (by omega)
  have h2 : sums (3 * q + 2) = (c.amt (3 * q + 2) + sums (3 * (q + 1))) % 64 := hs.2 _ (by omega)
  rw [c.amt_of_mod_zero (by omega)] at h0
  rw [c.amt_of_mod_one (by omega)] at h1
  rw [c.amt_of_mod_two (by omega), toNat_xor_mod] at h2
  unfold Context.turn
  omega

/-- The last `q` turns rotate by `q` times one turn. -/
theorem IsSuffixSum.last_turns {q : Nat} (hq : q ≤ 6) : sums (3 * (6 - q)) = q * c.turn % 64 := by
  induction q with
  | zero => rw [Nat.zero_mul]; exact hs.1
  | succ q ih =>
    have hnext : 6 - (q + 1) + 1 = 6 - q := by omega
    rw [hs.turn (by omega), hnext, ih (by omega), Nat.add_mod_mod, Nat.succ_mul, Nat.add_comm]

theorem IsSuffixSum.zero : sums 0 = c.totalRotation := hs.last_turns (q := 6) le_rfl

/-- What is still to be rotated after `m` steps turns the lane into its closed form over those steps. -/
theorem IsSuffixSum.rotl64_steps (i : Nat) (w : Word) {m : Nat} (hm : m ≤ 18) :
    rotl64 ((List.range m).foldl (fun v s => encLane c (c.amt s) i v) w) (sums m)
      = (List.range m).foldl (fun acc s => acc ^^^ rotl64 (c.laneKey i) (sums s)) (rotl64 w (sums 0)) := by
  induction m with
  | zero => rfl
  | succ m ih =>
    have hnow : sums m < 64 := hs.lt (by omega)
    rw [List.range_succ, List.foldl_append, List.foldl_append, List.foldl_cons, List.foldl_nil, List.foldl_cons,
      List.foldl_nil, ← ih (by omega), encLane, rotl64_rotl64 _ (c.amt_lt m) (hs.lt hm), ← hs.2 m (by omega),
      rotl64_xor _ _ hnow]

/-- R130, for one lane of a block. -/
theorem IsSuffixSum.getElem?_encBlock {ws : List Word} {i : Nat} {w : Word} (hi : i < c.wc) (hw : ws[i]? = some w) :
    (encBlock c ws)[i]?
      = some ((List.range 18).foldl (fun acc s => acc ^^^ rotl64 (c.keyWord i) (sums s)) (rotl64 w (sums 0))) := by
  have hsteps := hs.rotl64_steps i w le_rfl
  rw [hs.1, rotl64_zero, Context.laneKey_of_lt hi] at hsteps
  rw [Machine.getElem?_encBlock, hw, Option.map_some, hsteps]

end SuffixSums

/-- Settles O41: six turns make up the total rotation (`IsSuffixSum.zero`), and after 18 steps nothing is left to be rotated
(`IsSuffixSum.getElem?_encBlock`). -/
theorem encBlockClosedForm : Obligations.EncBlockClosedForm := by
  intro c ws sums _ hlast hstep
  have hs : IsSuffixSum c sums := ⟨hlast, hstep⟩
  exact ⟨hs.zero, fun i hi w hw => hs.getElem?_encBlock hi hw⟩

/-- The suffix sums, counted from the last step. -/
def Context.sumFromEnd (c : Context) : Nat → Nat
  | 0 => 0
  | n + 1 => (c.amt (17 - n) + c.sumFromEnd n) % 64

theorem Context.isSuffixSum (c : Context) : IsSuffixSum c fun s => c.sumFromEnd (18 - s) := by
  refine ⟨rfl, fun s hs => ?_⟩
  obtain ⟨n, hn⟩ : ∃ n, 18 - s = n + 1 := ⟨17 - s, by omega⟩
  have hamt : 17 - n = s := by omega
  have hnext : 18 - (s + 1) = n := by omega
  simp only [hn, hnext, Context.sumFromEnd, hamt]

/-! ### The identity cases (R131) -/

theorem foldl_xor_const_even (x k : Word) (n : Nat) : (List.range (2 * n)).foldl (fun acc _ => acc ^^^ k) x = x := by
  induction n with
  | zero => rfl
  | succ n ih =>
    rw [show 2 * (n + 1) = 2 * n + 1 + 1 by ring, List.range_succ, List.range_succ]
    simp only [List.foldl_append, List.foldl_cons, List.foldl_nil, ih]
    rw [BitVec.xor_assoc, BitVec.xor_self, BitVec.xor_zero]

theorem foldl_xor_zero (x : Word) (n : Nat) : (List.range n).foldl (fun acc _ => acc ^^^ 0#64) x = x := by
  induction n with
  | zero => rfl
  | succ n ih => rw [List.range_succ, List.foldl_append, ih, List.foldl_cons, List.foldl_nil, BitVec.xor_zero]

/-- R131(a): without rotations the 18 XORs with the same key word cancel. -/
theorem encBlock_of_zero_amounts {c : Context} (h0 : c.t0.toNat % 64 = 0) (h1 : c.t1.toNat % 64 = 0) (ws : List Word) :
    encBlock c ws = ws := by
  have hamt : ∀ s, c.amt s = 0 := fun s => by
    rcases mod_three_cases s with h | h | h
    · rw [c.amt_of_mod_zero h, h0]
    · rw [c.amt_of_mod_one h, h1]
    · rw [c.amt_of_mod_two h, toNat_xor_mod, h0, h1, Nat.xor_self]
  refine List.ext_getElem? fun i => ?_
  rw [getElem?_encBlock]
  simp only [encLane, hamt, rotl64_zero, foldl_xor_const_even _ _ 9, Option.map_id']

/-- R131(b): under a zero key a block is rotated by the total rotation. -/
theorem encBlock_of_zero_key {c : Context} {ws : List Word} (hlen : ws.length = c.wc)
    (hkey : ∀ j, j < c.wc → c.keyWord j = 0#64) : encBlock c ws = ws.map (rotl64 · c.totalRotation) := by
  refine List.ext_getElem? fun i => ?_
  rw [List.getElem?_map]
  cases hw : ws[i]? with
  | none => rw [getElem?_encBlock, hw]; rfl
  | some w =>
    have hi : i < c.wc := lt_wc_of_getElem? hlen hw
    have hs := c.isSuffixSum
    have hterm : ∀ acc : Word, ∀ s ∈ List.range 18, acc ^^^ rotl64 0#64 (c.sumFromEnd (18 - s)) = acc ^^^ 0#64 :=
      fun acc s hmem => by rw [rotl64_zero_word (hs.lt (List.mem_range.mp hmem).le)]
    rw [hs.getElem?_encBlock hi hw, hkey i hi, hs.zero, List.foldl_ext _ _ _ hterm, foldl_xor_zero, Option.map_some]

theorem rotl64_zero_map (ws : List Word) : ws.map (rotl64 · 0) = ws := by
  simp only [rotl64_zero, List.map_id']

/-- Settles O42: `encBlock_of_zero_amounts`, and under a zero key the rotation of `encBlock_of_zero_key`, which is 0 also for
the amounts 32 and 0. -/
theorem encBlockIdentityCases : Obligations.EncBlockIdentityCases := by
  intro c ws hlen
  refine ⟨fun h0 h1 => encBlock_of_zero_amounts h0 h1 ws, fun hkey => ?_⟩
  have hrot : encBlock c ws = ws.map (rotl64 · c.totalRotation) := encBlock_of_zero_key hlen hkey
  have hid : c.totalRotation = 0 → encBlock c ws = ws := fun h => by rw [hrot, h, rotl64_zero_map]
  refine ⟨hrot, hid, fun h0 h1 => hid ?_⟩
  rw [Context.totalRotation, Context.turn, h0, h1]
  rfl

/-! ### What the tweak does (R133) -/

theorem encBlock_congr_tweak {c d : Context} {ws : List Word} (hk : d.k = c.k) (hwc : d.wc = c.wc)
    (hlen : ws.length = c.wc) (h0 : d.t0.toNat % 64 = c.t0.toNat % 64) (h1 : d.t1.toNat % 64 = c.t1.toNat % 64) :
    encBlock d ws = encBlock c ws :=
  (blocks_congr hwc (Context.amt_congr h0 h1) (fun j _ => by rw [Context.keyWord, Context.keyWord, hk]) hlen).1

/-- Settles O43: the tweak acts through the step amounts (`encBlock_congr_tweak`), and under a zero key through the total
rotation (`encBlock_of_zero_key`). -/
theorem tweakActsThroughTwelveBits : Obligations.TweakActsThroughTwelveBits := by
  have hlow : (0#64).toNat % 64 = (64#64).toNat % 64 := by decide
  refine ⟨fun c d ws hk hwc hlen h0 h1 => encBlock_congr_tweak hk hwc hlen h0 h1,
    fun c ws hlen => encBlock_congr_tweak rfl rfl hlen hlow rfl, fun c d ws hwc hlen hkey hrot => ?_⟩
  have htotal : d.totalRotation = c.totalRotation := hrot
  rw [encBlock_of_zero_key hlen fun j hj => (hkey j hj).1,
    encBlock_of_zero_key (hlen.trans hwc.symm) fun j hj => (hkey j (hwc ▸ hj)).2, htotal]

/-! ### The byte forms (R129) -/

theorem wordsOf_encBlockBytes (c : Context) (blk : List Byte) :
    wordsOf (encBlockBytes c blk) c.wc = encBlock c (wordsOf blk c.wc) := by
  have h := wordsOf_bytesOf (encBlock c (wordsOf blk c.wc))
  rwa [length_encBlock, length_wordsOf] at h

theorem wordsOf_decBlockBytes (c : Context) (blk : List Byte) :
    wordsOf (decBlockBytes c blk) c.wc = decBlock c (wordsOf blk c.wc) := by
  have h := wordsOf_bytesOf (decBlock c (wordsOf blk c.wc))
  rwa [length_decBlock, length_wordsOf] at h

/-- Word `j` of the byte form is lane `j` of the word form. -/
theorem getElem?_encBlock_wordsOf (c : Context) (blk : List Byte) {j : Nat} (hj : j < c.wc) :
    (encBlock c (wordsOf blk c.wc))[j]? = some (le64Get (encBlockBytes c blk) (8 * j)) := by
  rw [← wordsOf_encBlockBytes, getElem?_wordsOf _ hj]

theorem getElem?_decBlock_wordsOf (c : Context) (blk : List Byte) {j : Nat} (hj : j < c.wc) :
    (decBlock c (wordsOf blk c.wc))[j]? = some (le64Get (decBlockBytes c blk) (8 * j)) := by
  rw [← wordsOf_decBlockBytes, getElem?_wordsOf _ hj]

section WholeBlock
variable {c : Context} {blk : List Byte} (hlen : blk.length = 8 * c.wc)
include hlen

theorem decBlockBytes_encBlockBytes : decBlockBytes c (encBlockBytes c blk) = blk := by
  rw [decBlockBytes, wordsOf_encBlockBytes, decBlock_encBlock, bytesOf_wordsOf hlen]

theorem encBlockBytes_decBlockBytes : encBlockBytes c (decBlockBytes c blk) = blk := by
  rw [encBlockBytes, wordsOf_decBlockBytes, encBlock_decBlock, bytesOf_wordsOf hlen]

end WholeBlock

/-- Settles O46: the words of a byte form are the word form (`wordsOf_encBlockBytes`), so the inverses carry over. -/
theorem byteFormsInvert : Obligations.ByteFormsInvert := fun c blk hlen =>
  ⟨rfl, rfl, fun _ hj => ⟨getElem?_encBlock_wordsOf c blk hj, getElem?_decBlock_wordsOf c blk hj⟩,
    length_encBlockBytes c blk, length_decBlockBytes c blk, decBlockBytes_encBlockBytes hlen,
    encBlockBytes_decBlockBytes hlen⟩

end Sys2Proof.Machine
end

section
/-! The padding codec both ways (42_padding.md): the round trips of LengthTagPadding (R145) and ZeroPadding (R148), and the
framed lengths (R149). -/

namespace Sys2Proof.Machine

/-! ### LengthTagPadding (R145) -/

/-- The pad bytes of an unaligned message say how many they are. -/
theorem ltUnpad_ltPad_of_unaligned {b : Nat} {m : List Byte} (hb : 0 < b) (hb' : b ≤ 256) (h : m.length % b ≠ 0) :
    ltUnpad (ltPad b m) = .ok m := by
  have hmod : m.length % b < b := Nat.mod_lt _ hb
  have hpad : padLen m.length b = b - m.length % b := padLen_of_unaligned hb h
  have hlast : (byteAt (ltPad b m) ((ltPad b m).length - 1)).toNat = padLen m.length b := by
    rw [length_ltPad]
    exact toNat_byteAt_ltPad_of_ge hb hb' (by omega) (by omega)
  have hlen := length_ltPad b m
  rw [ltUnpad_of_le_length (by omega) (by omega), hlast, hlen, Nat.add_sub_cancel, ltPad, List.take_left]

/-- An aligned message gets no pad. -/
theorem ltPad_of_aligned {b : Nat} {m : List Byte} (h : m.length % b = 0) : ltPad b m = m :=
  ltPad_of_padLen_eq_zero (padLen_of_aligned h)

/-- A buffer that ends in 0x00 has, as LT_UNPAD reads it, no pad. -/
theorem ltUnpad_of_last_zero {x : List Byte} (h : byteAt x (x.length - 1) = 0#8) : ltUnpad x = .ok x := by
  rcases Nat.eq_zero_or_pos x.length with h0 | h0
  · exact ltUnpad_of_length_eq_zero h0
  · rw [ltUnpad_of_le_length h0 (by simp [h]), h, BitVec.toNat_zero, Nat.sub_zero, List.take_length]

/-- Settles O50: an unaligned message is found again by its pad, and an aligned one is unpadded as it stands. -/
theorem lengthTagRoundTripCases : Obligations.LengthTagRoundTripCases := by
  intro b m hsize
  refine ⟨ltUnpad_ltPad_of_unaligned (by omega) (by omega), fun h0 => ?_, fun _ hal hlast => ?_, ?_,
    fun h0 hal hlast => ⟨?_, hlast.trans (byteAt m (m.length - 1)).isLt⟩⟩
  · rw [ltPad_of_aligned (by rw [h0, Nat.zero_mod]), ltUnpad_of_length_eq_zero h0, List.length_eq_zero_iff.mp h0]
  · rw [ltPad_of_aligned hal, ltUnpad_of_last_zero hlast]
  · rintro h0 hal _ rfl _ hle
    rw [ltPad_of_aligned hal, ltUnpad_of_le_length h0 hle]
  · rw [ltPad_of_aligned hal, ltUnpad_of_length_lt h0 hlast]

/-! ### ZeroPadding (R148) -/

/-- ZP_UNPAD drops the pad bytes and with them the trailing 0x00 bytes of the message. -/
theorem zpUnpad_zpPad_spec (b : Nat) (m : List Byte) :
    ∃ n, n ≤ m.length ∧ zpUnpad (zpPad b m) = m.take n ∧ (∀ i, n ≤ i → i < m.length → byteAt m i = 0#8)
      ∧ (0 < n → byteAt m (n - 1) ≠ 0#8) := by
  obtain ⟨n, hle, htake, hzeros, hlast⟩ := zpUnpad_spec (zpPad b m)
  rw [length_zpPad] at hle
  have hn : n ≤ m.length := by
    by_contra hgt
    exact hlast (by omega) (byteAt_zpPad_of_ge (by omega) (by omega))
  refine ⟨n, hn, ?_, fun i hi hlt => ?_, fun hpos => ?_⟩
  · rw [htake, zpPad, List.take_append_of_le_length hn]
  · rw [← byteAt_zpPad_of_lt b hlt]
    exact hzeros i hi (by rw [length_zpPad]; omega)
  · rw [← byteAt_zpPad_of_lt b (by omega)]
    exact hlast hpos

/-- The round trip keeps every message that does not end in 0x00. -/
theorem zpUnpad_zpPad {b : Nat} {m : List Byte} (h : m.length = 0 ∨ byteAt m (m.length - 1) ≠ 0#8) :
    zpUnpad (zpPad b m) = m := by
  obtain ⟨n, hn, htake, hzeros, _⟩ := zpUnpad_zpPad_spec b m
  have hall : n = m.length := by
    by_contra hne
    rcases h with h0 | hlast
    · omega
    · exact hlast (hzeros _ (by omega) (by omega))
  rw [htake, hall, List.take_length]

/-- Settles O51: the round trip keeps `n` bytes (`zpUnpad_zpPad_spec`), all of them exactly when no 0x00 stands at the end. -/
theorem zeroPaddingStripsTrailingZeros : Obligations.ZeroPaddingStripsTrailingZeros := by
  intro b m _
  refine ⟨⟨fun h => ?_, fun h => zpUnpad_zpPad (h.imp_left List.length_eq_zero_iff.mpr)⟩, zpUnpad_zpPad_spec b m⟩
  obtain ⟨n, hn, htake, _, hlast⟩ := zpUnpad_zpPad_spec b m
  have hall : n = m.length := by
    have hlen := congrArg List.length (htake.symm.trans h)
    rw [List.length_take] at hlen
    omega
  rw [← List.length_eq_zero_iff, ← hall]
  exact n.eq_zero_or_pos.imp_right hlast

/-! ### Framed lengths (R149) -/

theorem nonePad_of_length_eq {b : Nat} {m : List Byte} (h : m.length = b) : frameMessage .noPadding b m = .ok m :=
  if_pos h

theorem noneUnpad_of_length_eq {b : Nat} {m : List Byte} (h : m.length = b) : unframeMessage .noPadding b m = .ok m :=
  if_pos h

theorem unframeMessage_noPadding_of_length_ne {b : Nat} {m : List Byte} (h : m.length ≠ b) :
    unframeMessage .noPadding b m = .error .invalidInputLength :=
  if_neg h

@[simp] theorem unframeMessage_lengthTag (b : Nat) (x : List Byte) : unframeMessage .lengthTag b x = ltUnpad x := rfl

@[simp] theorem unframeMessage_zeroPadding (b : Nat) (x : List Byte) :
    unframeMessage .zeroPadding b x = .ok (zpUnpad x) := rfl

/-- Settles O52: mode None compares the length with the block, and the other modes are the lemmas about LT_UNPAD and
ZP_UNPAD. -/
theorem framedLengths : Obligations.FramedLengths := by
  intro b m hsize
  refine ⟨fun h => ⟨nonePad_of_length_eq h, noneUnpad_of_length_eq h⟩,
    fun h => ⟨frameMessage_noPadding_of_length_ne h, unframeMessage_noPadding_of_length_ne h⟩,
    fun mode hmode => ?_, fun h0 => ?_, ltUnpad_of_length_lt, fun h0 hle => ?_, ?_⟩
  · obtain ⟨x, hx⟩ := frameMessage_of_padded hmode b m
    exact ⟨x, hx, (frameMessage_ok hx).1, length_frameMessage_mod (by omega) hx⟩
  · rw [unframeMessage_lengthTag, ltUnpad_of_length_eq_zero h0, List.length_eq_zero_iff.mp h0]
  · exact ⟨_, ltUnpad_of_le_length h0 hle, List.length_take_of_le (Nat.sub_le _ _)⟩
  · obtain ⟨n, hle, htake, hzeros, hlast⟩ := zpUnpad_spec m
    have hlen : (zpUnpad m).length = n := by rw [htake, List.length_take_of_le hle]
    exact ⟨zpUnpad m, m.length - n, rfl, by omega, by rwa [hlen], by rwa [hlen]⟩

end Sys2Proof.Machine
end

section
/-! ENCRYPT and DECRYPT on messages that pass their checks (43_commands.md R170, R180): the bytes both commit, block by block,
the last byte that LengthTagPadding reads, and that DECRYPT after ENCRYPT gives the message back. -/

namespace Sys2Proof.Machine

/-! ### Consecutive bytes -/

theorem State.byteAt_dataPrefix (s : State) {n i : Nat} (h : i < n) :
    byteAt (s.dataPrefix n) i = s.readByte (dataBase + i) :=
  s.byteAt_readBytes dataBase h

theorem byteAt_take_drop (x : List Byte) (o : Nat) {n i : Nat} (h : i < n) :
    byteAt ((x.drop o).take n) i = byteAt x (o + i) := by
  rw [byteAt_take, if_pos h, byteAt_drop]

theorem length_take_drop {x : List Byte} {o n : Nat} (h : o + n ≤ x.length) : ((x.drop o).take n).length = n := by
  rw [List.length_take, List.length_drop]
  omega

/-- A stretch of bytes that were read is a read of that stretch. -/
theorem State.take_drop_readBytes (s : State) {a n o l : Nat} (h : o + l ≤ n) :
    ((s.readBytes a n).drop o).take l = s.readBytes (a + o) l := by
  have hlen : (((s.readBytes a n).drop o).take l).length = l := length_take_drop (by rwa [State.length_readBytes])
  refine bytes_ext (by rw [hlen, State.length_readBytes]) fun i hi => ?_
  rw [hlen] at hi
  rw [byteAt_take_drop _ _ hi, s.byteAt_readBytes a (by omega), s.byteAt_readBytes _ hi, Nat.add_assoc]

/-- The word among bytes that were read is a word read. -/
theorem State.le64Get_readBytes (s : State) {a n o : Nat} (h : o + 8 ≤ n) :
    le64Get (s.readBytes a n) o = s.readWord (a + o) := by
  refine ((s.readWord_eq_iff _ _).mpr fun m hm => ?_).symm
  rw [extractLsb'_le64Get_readBytes s h hm, Nat.add_assoc]

theorem State.readByte_writeBytes_add (s : State) (a : Nat) {y : List Byte} {i : Nat} (h : i < y.length) :
    (s.writeBytes a y).readByte (a + i) = byteAt y i := by
  rw [State.readByte_writeBytes, if_pos (by omega), Nat.add_sub_cancel_left]

/-- Bytes that were written and are read again. -/
theorem State.readBytes_writeBytes (s : State) (a : Nat) {y : List Byte} {o l : Nat} (h : o + l ≤ y.length) :
    (s.writeBytes a y).readBytes (a + o) l = (y.drop o).take l := by
  have hlen := length_take_drop h
  refine bytes_ext (by rw [hlen, State.length_readBytes]) fun i hi => ?_
  rw [State.length_readBytes] at hi
  rw [State.byteAt_readBytes _ _ hi, byteAt_take_drop _ _ hi, Nat.add_assoc, s.readByte_writeBytes_add a (by omega)]

theorem State.readBytes_writeBytes_all (s : State) (a : Nat) (y : List Byte) :
    (s.writeBytes a y).readBytes a y.length = y := by
  have h := s.readBytes_writeBytes a (y := y) (o := 0) (l := y.length) (by omega)
  rwa [Nat.add_zero, List.drop_zero, List.take_length] at h

theorem State.readByte_writeBytes_of_outside (s : State) (a : Nat) {y : List Byte} {x : Nat}
    (h : x < a ∨ a + y.length ≤ x) : (s.writeBytes a y).readByte x = s.readByte x := by
  rw [State.readByte_writeBytes, if_neg (by omega)]

/-! ### Blocks (R134) -/

theorem block_encBlocks {c : Context} {size : Nat} (hs : size = 8 * c.wc) (h0 : 0 < size) {x : List Byte} {k : Nat}
    (hk : size * (k + 1) ≤ x.length) :
    ((encBlocks c size x).drop (size * k)).take size = encBlockBytes c ((x.drop (size * k)).take size) :=
  block_mapBlocks (fun _ => (length_encBlockBytes c _).trans hs.symm)
    ((Nat.le_div_iff_mul_le h0).mpr (by rwa [Nat.mul_comm])) x

theorem block_decBlocks {c : Context} {size : Nat} (hs : size = 8 * c.wc) (h0 : 0 < size) {x : List Byte} {k : Nat}
    (hk : size * (k + 1) ≤ x.length) :
    ((decBlocks c size x).drop (size * k)).take size = decBlockBytes c ((x.drop (size * k)).take size) :=
  block_mapBlocks (fun _ => (length_decBlockBytes c _).trans hs.symm)
    ((Nat.le_div_iff_mul_le h0).mpr (by rwa [Nat.mul_comm])) x

/-- A pass over blocks that is undone block by block is undone. -/
theorem mapBlocks_undoes {f g : List Byte → List Byte} {size : Nat} (hf : ∀ blk, (f blk).length = size)
    (h : ∀ blk, blk.length = size → g (f blk) = blk) {n : Nat} {x : List Byte} (hx : x.length = n * size) :
    mapBlocks g size n (mapBlocks f size n x) = x := by
  induction n generalizing x with
  | zero =>
    rw [Nat.zero_mul] at hx
    rw [List.length_eq_zero_iff.mp hx, mapBlocks]
  | succ n ih =>
    rw [Nat.succ_mul] at hx
    have hrest : (x.drop size).length = n * size := by rw [List.length_drop]; omega
    have hfirst : (x.take size).length = size := List.length_take_of_le (by omega)
    rw [mapBlocks, mapBlocks, List.take_left' (hf _), List.drop_left' (hf _), h _ hfirst, ih hrest,
      List.take_append_drop]

theorem decBlocks_encBlocks {c : Context} {size : Nat} (hs : size = 8 * c.wc) {x : List Byte}
    (hx : x.length % size = 0) : decBlocks c size (encBlocks c size x) = x := by
  rw [decBlocks, length_encBlocks hs hx, encBlocks]
  refine mapBlocks_undoes (fun _ => (length_encBlockBytes c _).trans hs.symm)
    (fun _ hblk => decBlockBytes_encBlockBytes (hblk.trans hs)) ?_
  rw [Nat.div_mul_cancel (Nat.dvd_of_mod_eq_zero hx)]

/-! ### ENCRYPT (R170) -/

/-- The bytes of a framed message: those of the message, then the pad byte of the mode. -/
theorem byteAt_frameMessage {mode : PadMode} {b : Nat} {m x : List Byte} (h : frameMessage mode b m = .ok x) {i : Nat}
    (hi : i < m.length + padLen m.length b) :
    byteAt x i = if i < m.length then byteAt m i
      else if mode = .zeroPadding then 0#8 else BitVec.ofNat 8 (padLen m.length b) := by
  cases mode with
  | noPadding =>
    have hb : m.length = b := (frameMessage_ok h).2 rfl
    cases h.symm.trans (nonePad_of_length_eq hb)
    rw [padLen_of_aligned (by rw [hb, Nat.mod_self]), Nat.add_zero] at hi
    rw [if_pos hi]
  | lengthTag =>
    cases h
    split
    · next hlt => exact byteAt_ltPad_of_lt b hlt
    · next hge => exact byteAt_append_replicate _ (Nat.not_lt.mp hge) hi
  | zeroPadding =>
    cases h
    split
    · next hlt => exact byteAt_zpPad_of_lt b hlt
    · next hge => exact byteAt_zpPad_of_ge (Nat.not_lt.mp hge) hi

/-- A length that passes R171 is framed. -/
theorem exists_frameMessage {mode : PadMode} {b : Nat} {m : List Byte} (h : mode = .noPadding → m.length = b) :
    ∃ x, frameMessage mode b m = .ok x := by
  by_cases hmode : mode = .noPadding
  · subst hmode
    exact ⟨m, nonePad_of_length_eq (h rfl)⟩
  · exact frameMessage_of_padded hmode b m

/-- Block `k` of a framed message of bytes of `DATA`, byte by byte. -/
theorem State.block_frameMessage {s : State} {mode : PadMode} {l b k : Nat} {x : List Byte}
    (h : frameMessage mode b (s.dataPrefix l) = .ok x) (hk : b * (k + 1) ≤ l + padLen l b) :
    (x.drop (b * k)).take b = (List.range b).map fun j =>
      if b * k + j < l then s.readByte (dataBase + (b * k + j))
      else if mode = .zeroPadding then 0#8 else BitVec.ofNat 8 (padLen l b) := by
  have hlen : x.length = l + padLen l b := by rw [(frameMessage_ok h).1, State.length_dataPrefix]
  have hblk : ((x.drop (b * k)).take b).length = b := length_take_drop (by rwa [hlen, ← Nat.mul_succ])
  refine bytes_ext (by rw [hblk, List.length_map, List.length_range]) fun j hj => ?_
  rw [hblk] at hj
  have hi : b * k + j < l + padLen l b := by rw [Nat.mul_succ] at hk; omega
  rw [byteAt_take_drop _ _ hj, byteAt_map_range _ hj, byteAt_frameMessage h (by rwa [State.length_dataPrefix]),
    State.length_dataPrefix]
  split
  · next hlt => exact s.byteAt_dataPrefix hlt
  · rfl

/-- Where the byte form of a block stands, its words are the lanes of ENC_BLOCK (R129). -/
theorem State.getElem?_encBlock_of_readBytes {t : State} {c : Context} {a b : Nat} {blk : List Byte} (hb : b = 8 * c.wc)
    (h : t.readBytes a b = encBlockBytes c blk) {j : Nat} (hj : j < c.wc) :
    (encBlock c (wordsOf blk c.wc))[j]? = some (le64Get (t.readBytes (a + 8 * j) 8) 0) := by
  rw [getElem?_encBlock_wordsOf c blk hj, ← h, State.le64Get_readBytes t (by omega), State.readWord]

theorem State.getElem?_decBlock_of_readBytes {t : State} {c : Context} {a b : Nat} {blk : List Byte} (hb : b = 8 * c.wc)
    (h : t.readBytes a b = decBlockBytes c blk) {j : Nat} (hj : j < c.wc) :
    (decBlock c (wordsOf blk c.wc))[j]? = some (le64Get (t.readBytes (a + 8 * j) 8) 0) := by
  rw [getElem?_decBlock_wordsOf c blk hj, ← h, State.le64Get_readBytes t (by omega), State.readWord]

/-- A length within `DATA` is its own 64-bit value. -/
theorem State.toNat_ofNat_of_le_dataBytes {s : State} {n : Nat} (h : n ≤ s.dataBytes) : (BitVec.ofNat 64 n).toNat = n :=
  (BitVec.toNat_ofNat n 64).trans (Nat.mod_eq_of_lt (h.trans_lt s.dataBytes_lt))

/-- Settles O31: ENCRYPT commits the encryption of the framed message (`encryptResult_of_frame_ok`), so a block of `DATA` is
the byte form of a block of it (`block_encBlocks`), whose words are the lanes of ENC_BLOCK. -/
theorem encryptWritesCiphertext : Obligations.EncryptWritesCiphertext := by
  rintro s _ b rfl hb hv hwf hcap hmode
  obtain rfl : s.ctx.blockBytes = b := hb
  have hsize : s.ctx.blockBytes = 8 * s.ctx.wc := Context.blockBytes_eq hv hwf
  have hpos : 0 < s.ctx.blockBytes := Context.blockBytes_pos hv hwf
  obtain ⟨x, hx⟩ := exists_frameMessage (m := s.dataPrefix s.len.toNat) (by rwa [State.length_dataPrefix])
  have hxlen : x.length = s.len.toNat + padLen s.len.toNat s.ctx.blockBytes := by
    rw [(frameMessage_ok hx).1, State.length_dataPrefix]
  have hok : encryptResult s = .ok (encBlocks s.ctx s.ctx.blockBytes x) :=
    encryptResult_of_frame_ok (messageError_eq_none hv hcap) hx
  obtain ⟨hlen, hfit⟩ := encryptResult_ok_length hwf hok
  rw [hlen] at hfit
  refine ⟨_, exec_encrypt_of_ok hok, by rw [hlen]; rfl, ?_, fun a ha => ?_, fun k hk blk hblk => ?_⟩
  · exact (congrArg (fun n => (BitVec.ofNat 64 n).toNat) hlen).trans (State.toNat_ofNat_of_le_dataBytes hfit)
  · exact s.readByte_writeBytes_of_outside dataBase (by rwa [hlen])
  · have hbytes : (s.writeBytes dataBase (encBlocks s.ctx s.ctx.blockBytes x)).readBytes
        (dataBase + s.ctx.blockBytes * k) s.ctx.blockBytes = encBlockBytes s.ctx blk := by
      rw [State.readBytes_writeBytes s dataBase (by rwa [hlen]), block_encBlocks hsize hpos (by rwa [hxlen]),
        State.block_frameMessage hx hk, hblk]
    refine ⟨hbytes, fun j hj => ?_⟩
    rw [← Nat.add_assoc]
    exact State.getElem?_encBlock_of_readBytes hsize hbytes hj

/-! ### DECRYPT (R180) -/

theorem decryptResult_of_unframe_error {s : State} {x : List Byte} {e : ErrKind} (hm : messageError s = none)
    (hd : decryptLengthOk s.ctx s.len.toNat = true)
    (hx : decBlocks s.ctx s.ctx.blockBytes (s.dataPrefix s.len.toNat) = x)
    (hu : unframeMessage s.ctx.pmode s.ctx.blockBytes x = .error e) : decryptResult s = .error e := by
  simp only [decryptResult, hm, hd, hx, hu, Bool.true_eq_false, if_false]

/-- The length of the message that each mode finds in a decrypted buffer. -/
theorem unframeMessage_length {mode : PadMode} {b : Nat} {x z : List Byte} (h : unframeMessage mode b x = .ok z) :
    (mode = .noPadding → z.length = x.length)
      ∧ (mode = .lengthTag → x.length = 0 → z.length = 0)
      ∧ (mode = .lengthTag → 0 < x.length → z.length + (byteAt x (x.length - 1)).toNat = x.length)
      ∧ (mode = .zeroPadding →
          z.length ≤ x.length ∧ (∀ i, z.length ≤ i → i < x.length → byteAt x i = 0#8)
            ∧ (0 < z.length → byteAt x (z.length - 1) ≠ 0#8)) := by
  obtain ⟨n, hn, htake⟩ := unframeMessage_ok h
  have hz : z.length ≤ x.length := htake ▸ List.length_take_le' n x
  refine ⟨?_, fun _ h0 => by omega, ?_, ?_⟩
  · rintro rfl
    by_cases hb : x.length = b
    · cases h.symm.trans (noneUnpad_of_length_eq hb)
      rfl
    · cases h.symm.trans (unframeMessage_noPadding_of_length_ne hb)
  · rintro rfl h0
    rcases Nat.lt_or_ge x.length (byteAt x (x.length - 1)).toNat with hlt | hle
    · cases h.symm.trans (ltUnpad_of_length_lt h0 hlt)
    · cases h.symm.trans (ltUnpad_of_le_length h0 hle)
      rw [List.length_take_of_le (Nat.sub_le _ _)]
      omega
  · rintro rfl
    cases h
    obtain ⟨n, hle, htake, hzeros, hlast⟩ := zpUnpad_spec x
    have hlen : (zpUnpad x).length = n := by rw [htake, List.length_take_of_le hle]
    rw [hlen]
    exact ⟨hle, hzeros, hlast⟩

section Decrypt
variable {s : State} (hv : s.ctx.valid = true) (hwf : s.ctx.Wf)
include hv hwf

/-- Block `k` of the decrypted bytes of `DATA`. -/
theorem block_decBlocks_dataPrefix {n k : Nat} (hk : s.ctx.blockBytes * (k + 1) ≤ n) :
    ((decBlocks s.ctx s.ctx.blockBytes (s.dataPrefix n)).drop (s.ctx.blockBytes * k)).take s.ctx.blockBytes
      = decBlockBytes s.ctx (s.readBytes (dataBase + s.ctx.blockBytes * k) s.ctx.blockBytes) := by
  rw [block_decBlocks (Context.blockBytes_eq hv hwf) (Context.blockBytes_pos hv hwf) (by rwa [State.length_dataPrefix]),
    State.dataPrefix, State.take_drop_readBytes s (by rwa [← Nat.mul_succ])]

/-- The last decrypted byte is the last byte of the last decrypted block. -/
theorem byteAt_last_decBlocks {n : Nat} (hn : 0 < n) (hwhole : n % s.ctx.blockBytes = 0) :
    byteAt (decBlocks s.ctx s.ctx.blockBytes (s.dataPrefix n)) (n - 1)
      = byteAt (decBlockBytes s.ctx (s.readBytes (dataBase + (n - s.ctx.blockBytes)) s.ctx.blockBytes))
          (s.ctx.blockBytes - 1) := by
  have hpos := Context.blockBytes_pos hv hwf
  obtain ⟨q, hq⟩ := Nat.dvd_of_mod_eq_zero hwhole
  obtain ⟨k, rfl⟩ : ∃ k, q = k + 1 := Nat.exists_eq_succ_of_ne_zero (by rintro rfl; omega)
  have hstart : n - s.ctx.blockBytes = s.ctx.blockBytes * k := by rw [hq, Nat.mul_succ, Nat.add_sub_cancel]
  rw [hstart, ← block_decBlocks_dataPrefix hv hwf hq.ge, byteAt_take_drop _ _ (by omega)]
  congr 1
  rw [hq, Nat.mul_succ]
  omega

end Decrypt

/-- Settles O33: DECRYPT commits the decrypted bytes, block by block the inverse byte forms (`block_decBlocks_dataPrefix`);
the premise on the last byte rules out the one error of the unframing, whose length is `unframeMessage_length`. -/
theorem decryptWritesPlaintext : Obligations.DecryptWritesPlaintext := by
  rintro s _ b rfl hb hv hwf hcap hwhole hone hlast
  obtain rfl : s.ctx.blockBytes = b := hb
  have hsize : s.ctx.blockBytes = 8 * s.ctx.wc := Context.blockBytes_eq hv hwf
  obtain ⟨x, hx⟩ : ∃ x, decBlocks s.ctx s.ctx.blockBytes (s.dataPrefix s.len.toNat) = x := ⟨_, rfl⟩
  have hxlen : x.length = s.len.toNat := by
    rw [← hx, length_decBlocks hsize (by rwa [State.length_dataPrefix]), State.length_dataPrefix]
  obtain ⟨z, hz⟩ : ∃ z, unframeMessage s.ctx.pmode s.ctx.blockBytes x = .ok z := by
    rcases hu : unframeMessage s.ctx.pmode s.ctx.blockBytes x with e | z
    · obtain ⟨htag, h0, hgt, _⟩ := unframeMessage_error hu fun hmode => hxlen.trans (hone hmode)
      rw [hxlen] at h0 hgt
      have hle := hlast htag h0
      rw [← byteAt_last_decBlocks hv hwf h0 hwhole, hx] at hle
      omega
    · exact ⟨z, rfl⟩
  have hok : decryptResult s = .ok (x, z) :=
    decryptResult_of_unframe_ok (messageError_eq_none hv hcap) ((decryptLengthOk_iff _ _).mpr ⟨hone, hwhole⟩) hx hz
  obtain ⟨_, hzx, hfit⟩ := decryptResult_ok_length hwf hok
  obtain ⟨hnone, htagEmpty, htag, hzero⟩ := unframeMessage_length hz
  have hread : ∀ i, i < x.length → (s.writeBytes dataBase x).readByte (dataBase + i) = byteAt x i :=
    fun i hi => s.readByte_writeBytes_add dataBase hi
  rw [← hxlen]
  refine ⟨_, z.length, exec_decrypt_of_ok hok, rfl, State.toNat_ofNat_of_le_dataBytes (hzx.trans hfit),
    fun a ha => s.readByte_writeBytes_of_outside dataBase ha, fun k hk => ?_, hnone, htagEmpty, fun hmode h0 => ?_,
    fun hmode => ?_⟩
  · have hbytes : (s.writeBytes dataBase x).readBytes (dataBase + s.ctx.blockBytes * k) s.ctx.blockBytes
        = decBlockBytes s.ctx (s.readBytes (dataBase + s.ctx.blockBytes * k) s.ctx.blockBytes) := by
      rw [State.readBytes_writeBytes s dataBase (by rwa [← Nat.mul_succ]), ← hx, block_decBlocks_dataPrefix hv hwf (hxlen ▸ hk)]
    refine ⟨hbytes, fun j hj => ?_⟩
    rw [← Nat.add_assoc dataBase]
    exact State.getElem?_decBlock_of_readBytes hsize hbytes hj
  · exact (congrArg (fun v : Byte => z.length + v.toNat) (hread _ (by omega))).trans (htag hmode h0)
  · obtain ⟨hle, hzeros, hend⟩ := hzero hmode
    exact ⟨hle, fun i hi hlt => (hread i hlt).trans (hzeros i hi hlt),
      fun h0 => (hread _ (by omega)).trans_ne (hend h0)⟩

/-- Settles O34: the last decrypted byte is the one LT_UNPAD refuses (`byteAt_last_decBlocks`), and an error commits
nothing. -/
theorem decryptInvalidPaddingKeepsData : Obligations.DecryptInvalidPaddingKeepsData := by
  rintro s _ b rfl hb hv hwf hcap hwhole h0 hmode hlast
  obtain rfl : s.ctx.blockBytes = b := hb
  obtain ⟨x, hx⟩ : ∃ x, decBlocks s.ctx s.ctx.blockBytes (s.dataPrefix s.len.toNat) = x := ⟨_, rfl⟩
  have hxlen : x.length = s.len.toNat := by
    rw [← hx, length_decBlocks (Context.blockBytes_eq hv hwf) (by rwa [State.length_dataPrefix]),
      State.length_dataPrefix]
  rw [← byteAt_last_decBlocks hv hwf h0 hwhole, hx, ← hxlen] at hlast
  have hd : decryptLengthOk s.ctx s.len.toNat = true :=
    (decryptLengthOk_iff _ _).mpr ⟨fun h => absurd (hmode.symm.trans h) (by decide), hwhole⟩
  refine exec_decrypt_of_error (e := .invalidPadding) (decryptResult_of_unframe_error (messageError_eq_none hv hcap) hd hx ?_)
  rw [hmode, unframeMessage_lengthTag, ltUnpad_of_length_lt (hxlen ▸ h0) hlast]

/-! ### DECRYPT after ENCRYPT -/

/-- The messages that a padding mode gives back as they were (R142, R145, R148). -/
def PadMode.Lossless (mode : PadMode) (b : Nat) (m : List Byte) : Prop :=
  mode = .noPadding
    ∨ (mode = .lengthTag ∧ (m.length % b ≠ 0 ∨ m.length = 0 ∨ byteAt m (m.length - 1) = 0#8))
    ∨ (mode = .zeroPadding ∧ (m.length = 0 ∨ byteAt m (m.length - 1) ≠ 0#8))

theorem unframeMessage_frameMessage {mode : PadMode} {b : Nat} {m x : List Byte} (hb : 0 < b) (hb' : b ≤ 256)
    (hframe : frameMessage mode b m = .ok x) (h : mode.Lossless b m) : unframeMessage mode b x = .ok m := by
  rcases h with rfl | ⟨rfl, h⟩ | ⟨rfl, h⟩
  · have hlen : m.length = b := (frameMessage_ok hframe).2 rfl
    cases hframe.symm.trans (nonePad_of_length_eq hlen)
    exact noneUnpad_of_length_eq hlen
  · cases hframe
    rw [unframeMessage_lengthTag]
    by_cases hal : m.length % b = 0
    · rw [ltPad_of_aligned hal]
      exact (h.resolve_left (not_not.mpr hal)).elim ltUnpad_of_length_eq_zero ltUnpad_of_last_zero
    · exact ltUnpad_ltPad_of_unaligned hb hb' hal
  · cases hframe
    rw [unframeMessage_zeroPadding, zpUnpad_zpPad h]

/-- Where `DATA` holds the encryption of `x`, DECRYPT finds `x` and the message in it. -/
theorem decryptResult_of_encBlocks {v : State} {x m : List Byte} (hv : v.ctx.valid = true) (hwf : v.ctx.Wf)
    (hlen : v.len.toNat = x.length) (hcap : x.length ≤ v.dataBytes) (hwhole : x.length % v.ctx.blockBytes = 0)
    (hone : v.ctx.pmode = .noPadding → x.length = v.ctx.blockBytes)
    (hdata : v.dataPrefix x.length = encBlocks v.ctx v.ctx.blockBytes x)
    (hu : unframeMessage v.ctx.pmode v.ctx.blockBytes x = .ok m) : decryptResult v = .ok (x, m) := by
  rw [← hlen] at hcap
  refine decryptResult_of_unframe_ok (messageError_eq_none hv hcap) ?_ ?_ hu
  · rw [hlen]
    exact (decryptLengthOk_iff _ _).mpr ⟨hone, hwhole⟩
  · rw [hlen, hdata, decBlocks_encBlocks (Context.blockBytes_eq hv hwf) hwhole]

/-- The bytes of a message at the start of `DATA` decide whether its mode gives it back. -/
theorem State.lossless_dataPrefix {s : State} {mode : PadMode} {b l : Nat}
    (h : mode = .noPadding
      ∨ (mode = .lengthTag ∧ (l % b ≠ 0 ∨ l = 0 ∨ s.readByte (dataBase + (l - 1)) = 0#8))
      ∨ (mode = .zeroPadding ∧ (l = 0 ∨ s.readByte (dataBase + (l - 1)) ≠ 0#8))) :
    mode.Lossless b (s.dataPrefix l) := by
  unfold PadMode.Lossless
  rw [State.length_dataPrefix]
  rcases Nat.eq_zero_or_pos l with h0 | h0
  · exact h.imp_right (Or.imp (And.imp_right fun _ => .inr (.inl h0)) (And.imp_right fun _ => .inl h0))
  · rwa [s.byteAt_dataPrefix (show l - 1 < l by omega)]

/-- A successful ENCRYPT has framed the message and encrypted the frame. -/
theorem encryptResult_ok_frame {s : State} {y : List Byte} (h : encryptResult s = .ok y) :
    ∃ x, frameMessage s.ctx.pmode s.ctx.blockBytes (s.dataPrefix s.len.toNat) = .ok x
      ∧ encBlocks s.ctx s.ctx.blockBytes x = y := by
  rcases encryptResult_cases s with ⟨e, _, he⟩ | ⟨_, _, _, _, he⟩ | ⟨_, _, _, x, hx, he⟩ <;> cases h.symm.trans he
  exact ⟨x, hx, rfl⟩

/-- Settles O35: after ENCRYPT, `DATA` up to `OUTLEN` is the encryption of the framed message, whose decryption is that message
(`decryptResult_of_encBlocks`), and the framing loses nothing (`unframeMessage_frameMessage`). -/
theorem decryptAfterEncryptRestoresMessage : Obligations.DecryptAfterEncryptRestoresMessage := by
  rintro s t _ b rfl hb hv hwf ht herr hloss
  obtain rfl : s.ctx.blockBytes = b := hb
  rcases execEncrypt_cases s with ⟨e, _, he⟩ | ⟨y, hy, he⟩ <;> cases ht.symm.trans he
  · exact absurd ((s.raise_err _ e).symm.trans herr) e.code_ne_zero
  have hb := Context.blockBytes_cases hv hwf
  obtain ⟨hylen, hfit⟩ := encryptResult_ok_length hwf hy
  obtain ⟨x, hx, hxy⟩ := encryptResult_ok_frame hy
  obtain ⟨hxlen, hone⟩ := frameMessage_ok hx
  rw [State.length_dataPrefix] at hxlen hone
  have hyx : y.length = x.length := hylen.trans hxlen.symm
  have hwhole : x.length % s.ctx.blockBytes = 0 := length_frameMessage_mod (by omega) hx
  have hblock : s.ctx.pmode = .noPadding → x.length = s.ctx.blockBytes := fun hm => by
    rw [hxlen, hone hm, padLen_of_aligned (Nat.mod_self _), Nat.add_zero]
  have hu : unframeMessage s.ctx.pmode s.ctx.blockBytes x = .ok (s.dataPrefix s.len.toNat) :=
    unframeMessage_frameMessage (by omega) (by omega) hx (State.lossless_dataPrefix hloss)
  have hdata : (s.writeBytes dataBase y).dataPrefix x.length = y := hyx ▸ s.readBytes_writeBytes_all dataBase y
  have hok := decryptResult_of_encBlocks
    (v := { ((s.writeBytes dataBase y).setOutlen y.length).succeed with len := BitVec.ofNat 64 y.length }) hv hwf
    ((State.toNat_ofNat_of_le_dataBytes hfit).trans hyx) (hyx ▸ hfit) hwhole hblock (hdata.trans hxy.symm) hu
  refine ⟨_, exec_decrypt_of_ok hok, rfl, ?_, fun i hi => ?_⟩
  · exact (congrArg (BitVec.ofNat 64) (s.length_dataPrefix _)).trans (by simp)
  · have hmsg : byteAt x i = s.readByte (dataBase + i) := by
      rw [byteAt_frameMessage hx (by rw [State.length_dataPrefix]; omega), State.length_dataPrefix, if_pos hi,
        s.byteAt_dataPrefix hi]
    exact (State.readByte_writeBytes_add _ dataBase (by omega)).trans hmsg

end Sys2Proof.Machine
end

section
/-! Decoding and the host port (30_encoding.md R81, 20_memory.md): the command words, where accesses complete (R53, R56), and
what the registers read and take (R55). -/

namespace Sys2Proof.Machine

/-! ### Command words (30_encoding.md R71, R81) -/

/-- Settles O2: the decoder reads back an encoding (`decode_encode`), and `decode_eq_command_iff`. -/
theorem decodeEncodeRoundTrip : Obligations.DecodeEncodeRoundTrip :=
  fun i _ => ⟨decode_encode i, fun _ => decode_eq_command_iff.mp⟩

/-- Settles O3: the three words are encodings, the other three are no command's. -/
theorem decodeSpecWords : Obligations.DecodeSpecWords := by
  have hillegal : ∀ c : Word, c ≠ 1#64 ∧ c ≠ 2#64 ∧ c ≠ 3#64 → decode c = .illegalCommand :=
    fun c h => decode_of_ne_encode (forall_ne_encode_iff.mpr h)
  exact ⟨decode_encode .configure, decode_encode .encrypt, decode_encode .decrypt, hillegal _ (by decide),
    hillegal _ (by decide), hillegal _ (by decide)⟩

theorem runWord_of_command {c : Word} {i : Instr} (h : decode c = .command i) (s : State) : runWord c s = exec i s := by
  rw [runWord, h]

/-- A well-formed 64-bit write to `CMD` runs the command its word encodes. -/
theorem performAccess_commandWrite {c : Word} {i : Instr} (h : decode c = .command i) (s : State) :
    performAccess s ⟨BitVec.ofNat 32 0x000, 64, .write c⟩ = exec i s := by
  have hloc : locate s.dataBytes (BitVec.ofNat 32 0x000).toNat = .cmd := (locate_cmd_iff _ _).mpr rfl
  rw [performAccess_write rfl rfl, hloc, writeLocation, runWord_of_command h]

/-- Settles O4: while reset is released the step is the access (`step_access`), while it is asserted the access completes and
only the reset values are left (`step_access_asserted`). -/
theorem stepRunsDecodedCommand : Obligations.StepRunsDecodedCommand := by
  intro s rest c i hp hc
  have hrun := performAccess_commandWrite hc (s.setPending rest)
  refine ⟨fun hr => (step_access hr hp).trans hrun, fun hr => ?_⟩
  obtain ⟨u, hu⟩ := everyCommandCompletes i (s.setPending rest)
  obtain ⟨_, _, _, _, hreplies⟩ := exec_hostSide hu
  rw [step_access_asserted hr hp (hrun.trans hu), hreplies]
  rfl

/-! ### The register map (R51) -/

/-- The rows of the register map stand at multiples of 8 below 0x68, one at each offset. -/
theorem registerMap_rows : ∀ r ∈ registerMap, registerAt r.1 = r.2 ∧ r.1 % 8 = 0 ∧ r.1 < 0x068 := by
  decide

theorem lt_of_mem_registerMap {off : Nat} {l : Location} (h : (off, l) ∈ registerMap) : off < 0x068 :=
  (registerMap_rows _ h).2.2

theorem locate_of_mem_registerMap {off : Nat} {l : Location} (h : (off, l) ∈ registerMap) (cap : Nat) :
    locate cap off = l ∧ off % 8 = 0 ∧ off < 2 ^ 32 := by
  obtain ⟨hat, h8, hlt⟩ : registerAt off = l ∧ off % 8 = 0 ∧ off < 0x068 := registerMap_rows _ h
  exact ⟨(if_pos (show off < 0x100 by omega)).trans hat, h8, by omega⟩

/-- What the registers read, row by row. -/
def registerReads (s : State) : List (Nat × Word) :=
  registerMap.filterMap fun r => (readLocation s r.2).map (r.1, ·)

/-- Settles O9: the rows of the statement are `registerReads`, and a read of a row returns its value (`step_r64`). -/
theorem registerReadsReturnValues : Obligations.RegisterReadsReturnValues := by
  intro s rest off w hmem hr hp
  have hread : (off, w) ∈ registerReads (s.setPending rest) := hmem
  obtain ⟨⟨o, l⟩, hrow, hval⟩ := List.mem_filterMap.mp hread
  obtain ⟨w', hw, hpair⟩ := Option.map_eq_some_iff.mp hval
  cases hpair
  obtain ⟨hloc, h8, hlt⟩ := locate_of_mem_registerMap hrow s.dataBytes
  exact step_r64 hr hlt h8 hp (hloc ▸ hw)

/-- While reset is released, a write of a register of the map is the effect of its row. -/
theorem step_w64_register {s : State} {rest : List HostEvent} {off : Nat} {l : Location} {v : Word}
    (hr : s.resetAsserted = false) (hrow : (off, l) ∈ registerMap) (hp : s.pending = w64 off v :: rest) :
    step s = writeLocation (s.setPending rest) l v := by
  obtain ⟨hloc, h8, hlt⟩ := locate_of_mem_registerMap hrow s.dataBytes
  rw [step_w64 hr hlt h8 hp, hloc]

/-- The registers the engine alone writes (R51, R55). -/
def readOnlyRegisters : List Location := [.status, .outlen, .ctxBsz, .ctxPmode, .ctxT0, .ctxT1, .ctxT2]

theorem writeLocation_readOnly {l : Location} (h : l ∈ readOnlyRegisters) (s : State) (v : Word) :
    writeLocation s l v = .next s := by
  simp only [readOnlyRegisters, List.mem_cons, List.not_mem_nil, or_false] at h
  rcases h with rfl | rfl | rfl | rfl | rfl | rfl | rfl
  all_goals rfl

/-- The offsets of the read-only registers. -/
theorem readOnly_rows : ∀ off ∈ [0x008, 0x038, 0x040, 0x048, 0x050, 0x058, 0x060],
    (off, registerAt off) ∈ registerMap ∧ registerAt off ∈ readOnlyRegisters := by
  decide

/-- Settles O10: each offset has its row (`step_w64_register`), which stores the word or ignores it
(`writeLocation_readOnly`). -/
theorem registerWritesStoreOrAreIgnored : Obligations.RegisterWritesStoreOrAreIgnored := by
  intro s rest v hr
  refine ⟨step_w64_register (l := .bsz) hr (by decide), step_w64_register (l := .pmode) hr (by decide),
    step_w64_register (l := .keylen) hr (by decide), step_w64_register (l := .twlen) hr (by decide),
    step_w64_register (l := .len) hr (by decide), fun off hoff hp => ?_⟩
  obtain ⟨hrow, hro⟩ := readOnly_rows off hoff
  exact (step_w64_register hr hrow hp).trans (writeLocation_readOnly hro _ v)

/-- Settles O14: the value of `STATUS` is `256 * ERR + CTXV`, below 2^16. -/
theorem statusFields : Obligations.StatusFields := by
  intro s
  have hvalid : s.ctx.valid.toNat < 2 := Bool.toNat_lt _
  have herr : s.err.toNat < 256 := s.err.isLt
  have hstatus : (statusWord s).toNat = 256 * s.err.toNat + s.ctx.valid.toNat := by
    rw [statusWord, BitVec.toNat_ofNat]
    omega
  refine ⟨?_, ?_, ?_, ?_⟩ <;> refine BitVec.eq_of_toNat_eq ?_ <;>
    rw [BitVec.extractLsb'_toNat, hstatus, Nat.shiftRight_eq_div_pow]
  · rw [BitVec.toNat_ofBool]; omega
  · rw [BitVec.toNat_zero]; omega
  · omega
  · rw [BitVec.toNat_zero]; omega

/-! ### Which accesses complete (R53, R56) -/

theorem writeLocation_completes {l : Location} (h : l ≠ .reserved ∧ l ≠ .outside) (s : State) (v : Word) :
    ∃ t, writeLocation s l v = .next t := by
  cases l with
  | cmd =>
    rw [writeLocation]
    rcases hd : decode v with i | _
    · rw [runWord_of_command hd]
      exact everyCommandCompletes i s
    · exact ⟨_, runWord_of_illegal hd s⟩
  | reserved => exact absurd rfl h.1
  | outside => exact absurd rfl h.2
  | _ => exact ⟨_, rfl⟩

/-- A well-formed access to a mapped offset completes. -/
theorem performAccess_completes {s : State} {a : Access} (hwf : a.wellFormed = true)
    (hmap : Mapped s.dataBytes a.off.toNat) : ∃ t, performAccess s a = .next t := by
  rcases hop : a.op with _ | v
  · obtain ⟨w, hw⟩ := (readLocation_isSome s _).mpr hmap
    exact ⟨_, performAccess_read_some hwf hop hw⟩
  · rw [performAccess_write hwf hop]
    exact writeLocation_completes hmap s v

/-- An access to an offset that is not mapped is a BusError. -/
theorem performAccess_unmapped {s : State} {a : Access} (h : ¬ Mapped s.dataBytes a.off.toNat) :
    performAccess s a = .fault .busError := by
  cases hwf : a.wellFormed with
  | false => exact performAccess_malformed hwf
  | true =>
    have hloc : locate s.dataBytes a.off.toNat = .reserved ∨ locate s.dataBytes a.off.toNat = .outside := by
      by_contra hne
      exact h (not_or.mp hne)
    rcases hop : a.op with _ | v
    · rw [performAccess_read hwf hop]
      rcases hloc with e | e <;> rw [e] <;> rfl
    · rw [performAccess_write hwf hop]
      rcases hloc with e | e <;> rw [e] <;> rfl

/-- No register stands from 0x68 up. -/
theorem registerAt_of_ge {off : Nat} (h : 0x068 ≤ off) : registerAt off = .reserved := by
  exact (registerAt_mem off).resolve_left fun hmem => Nat.not_lt.mpr h (lt_of_mem_registerMap hmem)

theorem not_mapped_of_reserved {cap off : Nat}
    (h : (0x068 ≤ off ∧ off < 0x100) ∨ (0x190 ≤ off ∧ off < 0x1000) ∨ 0x1000 + cap ≤ off) : ¬ Mapped cap off := by
  rintro ⟨hres, hout⟩
  rcases locate_cases cap off with ⟨_, e⟩ | ⟨_, _, _⟩ | ⟨_, _, _⟩ | ⟨_, _, e⟩ | ⟨_, _, _⟩ | ⟨_, e⟩
  · rw [registerAt_of_ge (by omega)] at e
    exact hres e
  · omega
  · omega
  · exact hres e
  · omega
  · exact hout e

/-- Settles O7: the ranges are not mapped, and an access there is refused (`performAccess_unmapped`). -/
theorem reservedOffsetIsBusError : Obligations.ReservedOffsetIsBusError := by
  intro s rest a hp hrange
  exact step_access_fault hp (performAccess_unmapped (not_mapped_of_reserved hrange))

/-- Settles O8: a legal access completes (`performAccess_completes`), an illegal one is malformed or not mapped, and driving
the reset input completes. -/
theorem stepCompletesUnlessBusError : Obligations.StepCompletesUnlessBusError := by
  refine fun s => ⟨step_idle, fun e rest hp => ?_⟩
  cases e with
  | resetInput l => exact ⟨fun _ => ⟨_, step_resetInput hp⟩, fun h => absurd trivial h⟩
  | access a =>
    refine ⟨fun ⟨hwf, hmap⟩ => ?_, fun hbad => ?_⟩
    · obtain ⟨u, hu⟩ := performAccess_completes (s := s.setPending rest) hwf hmap
      exact ⟨u.holdReset, by rw [step_event hp, performEvent, hu, holdOutcome]⟩
    · cases hwf : a.wellFormed with
      | false => exact step_access_fault hp (performAccess_malformed hwf)
      | true => exact step_access_fault hp (performAccess_unmapped fun hmap => hbad ⟨hwf, hmap⟩)

/-- Settles O15: inside the window the offset is below 2^32, because `DATA_BYTES` is at most `2^32 - 0x1000`. -/
theorem windowRoutesToOffsets : Obligations.WindowRoutesToOffsets := by
  intro p addr width op
  have hcap := Config_dataBytes_le p
  have hbase : dataBase = 0x1000 := rfl
  refine ⟨fun off hoff haddr => ?_, fun hout => if_neg (by omega)⟩
  have hsub : addr - p.engineBase = off := by omega
  refine ⟨_, if_pos (by omega), ?_, rfl, rfl⟩
  rw [hsub]
  exact Nat.mod_eq_of_lt (by omega)

/-! ### Repeated accesses (R57) -/

/-- The listed byte at an offset after one byte write. -/
theorem Memory.find_write (m : Memory) (a : Nat) (b : Byte) (x : Nat) :
    (m.write a b).find x = if x = a then (if Memory.known a = some b then none else some b) else m.find x := by
  unfold Memory.write
  split
  · exact m.find_removeCell a x
  · exact m.find_insertCell a b x

/-- The listed byte at an offset after a write of consecutive bytes. -/
theorem Memory.find_writeAll (m : Memory) (a : Nat) (bs : List Byte) (x : Nat) :
    (m.writeAll a bs).find x
      = if a ≤ x ∧ x < a + bs.length then
          (if Memory.known x = some (byteAt bs (x - a)) then none else some (byteAt bs (x - a)))
        else m.find x := by
  induction bs generalizing m a with
  | nil => rw [List.length_nil, if_neg (by omega), Memory.writeAll]
  | cons b bs ih =>
    rw [Memory.writeAll, ih, Memory.find_write, List.length_cons]
    rcases Nat.lt_trichotomy x a with hlt | rfl | hgt
    · rw [if_neg (by omega), if_neg (by omega), if_neg (by omega)]
    · rw [if_neg (by omega), if_pos rfl, if_pos (show x ≤ x ∧ x < x + (bs.length + 1) by omega), Nat.sub_self, byteAt_cons_zero]
    · obtain ⟨k, rfl⟩ := Nat.exists_eq_add_of_lt hgt
      have hk : a + k + 1 - (a + 1) = k := by omega
      have hk' : a + k + 1 - a = k + 1 := by omega
      rw [hk, hk', byteAt_cons_succ, if_neg (show ¬ a + k + 1 = a by omega)]
      exact if_congr (by omega) rfl rfl

/-- Writing the same bytes again leaves the same canonical memory. -/
theorem Memory.writeAll_writeAll {m : Memory} (h : m.wf = true) (a : Nat) (bs : List Byte) :
    (m.writeAll a bs).writeAll a bs = m.writeAll a bs := by
  have hw : (m.writeAll a bs).wf = true := Memory.wf_writeAll a bs h
  refine Memory.eq_of_find_eq (Memory.wf_writeAll a bs hw) hw fun x => ?_
  rw [Memory.find_writeAll, Memory.find_writeAll]
  split <;> rfl

theorem State.writeWord_writeWord {s : State} (h : s.mem.wf = true) (a : Nat) (v : Word) :
    (s.writeWord a v).writeWord a v = s.writeWord a v := by
  simp only [State.writeWord, State.writeBytes, Memory.writeAll_writeAll h]

/-- A write of another location than `CMD` can be repeated. -/
theorem writeLocation_repeat {s t : State} {l : Location} {v : Word} (hmem : s.mem.wf = true) (hl : l ≠ .cmd)
    (h : writeLocation s l v = .next t) : writeLocation t l v = .next t := by
  cases l with
  | cmd => exact absurd rfl hl
  | reserved | outside => cases h
  | keybuf a | twbuf a | data a =>
    cases h
    exact congrArg Host.Outcome.next (State.writeWord_writeWord hmem a v)
  | _ =>
    cases h
    rfl

/-- The reply to the host is read by nothing. -/
theorem readLocation_reply (s : State) (w : Word) (l : Location) : readLocation (s.reply w) l = readLocation s l := by
  cases l <;> rfl

/-- Settles O12: a read shows the same location again (`readLocation_reply`), and a write that is no `CMD` write can be
repeated (`writeLocation_repeat`). -/
theorem otherAccessesAreIdempotent : Obligations.OtherAccessesAreIdempotent := by
  intro s t a hmem hcmd h
  have hcap : t.dataBytes = s.dataBytes := congrArg Config.Params.dataBytes (performAccess_hostSide h).2.1
  obtain ⟨hwidth, h8, ⟨hop, w, hw, rfl⟩ | ⟨v, hop, hw⟩⟩ := performAccess_next h
  all_goals have hwf : a.wellFormed = true := by simp [Access.wellFormed, hwidth, h8]
  · exact ⟨⟨_, performAccess_read_some hwf hop ((readLocation_reply s w _).trans hw), rfl⟩, fun _ => rfl⟩
  · have hl : locate s.dataBytes a.off.toNat ≠ .cmd := fun hc => by
      have hoff : a.off = 0#32 := BitVec.eq_of_toNat_eq ((locate_cmd_iff _ _).mp hc)
      exact absurd (hop.symm.trans (hcmd hoff)) (by simp)
    refine ⟨⟨t, ?_, rfl⟩, fun hread => absurd (hop.symm.trans hread) (by simp)⟩
    rw [performAccess_write hwf hop, hcap]
    exact writeLocation_repeat hmem hl hw

end Sys2Proof.Machine
end

section
/-! Reset (10_state.md R42, 70_reset_and_hazards.md R220): what driving the reset input and every event under reset leave, and
what only a reset does. -/

namespace Sys2Proof.Machine

/-! ### The reset input -/

/-- Settles O17: the step is `State.driveReset` of the level (`step_resetInput`), which takes the reset values unless a released
input is driven low. -/
theorem resetInputForcesResetState : Obligations.ResetInputForcesResetState := by
  refine fun s rest => ⟨fun hp => ?_, fun hr hp => ?_, fun hr hp => ?_⟩ <;> rw [step_resetInput hp]
  · rw [State.driveReset_true]
    rfl
  · rw [State.driveReset_of_asserted (s := s.setPending rest) hr]
    rfl
  · rw [State.driveReset_false (s := s.setPending rest) hr]
    rfl

/-- A byte of `DATA` that nothing has written since the reset is the free draw's. -/
theorem State.AtReset.readByte_data {s : State} (h : s.AtReset) (i : Nat) :
    s.readByte (dataBase + i) = Config.dataAtReset s.draw i := by
  rw [State.readByte_eq, congrArg State.mem h]
  exact Memory.unlisted_data i s.draw

/-- Below `DATA` every byte reads 0x00 at reset. -/
theorem State.AtReset.readByte_of_lt {s : State} (h : s.AtReset) {x : Nat} (hx : x < 0x1000) : s.readByte x = 0#8 := by
  rw [State.readByte_eq, congrArg State.mem h]
  exact Memory.unlisted_of_lt hx s.draw

/-- Settles O18: two steps of `resetInputForcesResetState`, the assertion and the release. -/
theorem resetPulseResetsEngine : Obligations.ResetPulseResetsEngine := by
  intro s rest hp
  obtain ⟨hassert, _, _⟩ := resetInputForcesResetState s (.resetInput false :: rest)
  obtain ⟨_, hrelease, _⟩ := resetInputForcesResetState
    { State.resetWith s.params (s.draw + 1) with
      resetAsserted := true, pending := .resetInput false :: rest, replies := s.replies } rest
  refine ⟨_, _, hassert hp, rfl, rfl, hrelease rfl rfl, rfl, fun i => ?_⟩
  exact State.AtReset.readByte_data rfl i

/-! ### Events under reset -/

theorem State.AtReset.setPending {s : State} (h : s.AtReset) (rest : List HostEvent) : (s.setPending rest).AtReset :=
  congrArg (State.setPending · rest) h

/-- A mapped offset is that of a register or of a buffer byte. -/
theorem register_or_buffer_of_mapped {cap off : Nat} (h : Mapped cap off) :
    (off, locate cap off) ∈ registerMap ∨ isBufferByte cap off = true := by
  obtain ⟨hres, hout⟩ := h
  rw [isBufferByte_iff]
  rcases locate_cases cap off with ⟨_, e⟩ | ⟨_, _, _⟩ | ⟨_, _, _⟩ | ⟨_, _, e⟩ | ⟨_, _, _⟩ | ⟨_, e⟩
  · rw [e] at hres ⊢
    exact .inl ((registerAt_mem off).resolve_right hres)
  · omega
  · omega
  · exact absurd e hres
  · omega
  · exact absurd e hout

/-- At reset every register reads 0, the readback registers because no context exists. -/
theorem State.AtReset.readLocation_register {s : State} (h : s.AtReset) {off : Nat} {l : Location}
    (hrow : (off, l) ∈ registerMap) : readLocation s l = some 0#64 := by
  rw [h]
  cases l with
  | keybuf a | twbuf a | data a | reserved | outside => simp [registerMap] at hrow
  | _ => rfl

theorem State.AtReset.readWord_of_lt {s : State} (h : s.AtReset) {a : Nat} (ha : a + 8 ≤ 0x1000) : s.readWord a = 0#64 := by
  refine (s.readWord_eq_iff a _).mpr fun m hm => ?_
  rw [h.readByte_of_lt (by omega), BitVec.extractLsb'_zero]

/-- At reset a read below `DATA` gives 0. -/
theorem State.AtReset.readLocation_of_lt {s : State} (h : s.AtReset) {cap off : Nat} (hmap : Mapped cap off)
    (hlt : off < 0x1000) : readLocation s (locate cap off) = some 0#64 := by
  rcases register_or_buffer_of_mapped hmap with hrow | hbuf
  · exact h.readLocation_register hrow
  · have hrange := (isBufferByte_iff cap off).mp hbuf
    rw [readLocation_of_isBufferByte hbuf, h.readWord_of_lt (by omega), ite_self]

/-- From `DATA` up a read gives the word there. -/
theorem readLocation_of_ge {cap off : Nat} (hmap : Mapped cap off) (hge : 0x1000 ≤ off) (s : State) :
    readLocation s (locate cap off) = some (s.readWord off) := by
  rcases register_or_buffer_of_mapped hmap with hrow | hbuf
  · exact absurd (lt_of_mem_registerMap hrow) (by omega)
  · rw [readLocation_of_isBufferByte hbuf, if_neg (by omega)]

/-- Settles O19: the access completes and leaves reset values (`step_access_asserted`), and what a read gives is what stands
at reset. -/
theorem accessesUnderResetHaveNoEffect : Obligations.AccessesUnderResetHaveNoEffect := by
  intro s rest a hr hs hp hwf hmap
  have hat : (s.setPending rest).AtReset := hs.setPending rest
  refine ⟨fun v hop => ?_, fun hop => ?_⟩
  · obtain ⟨u, hu⟩ := performAccess_completes (s := s.setPending rest) hwf hmap
    obtain ⟨_, _, _, _, hreplies⟩ := performAccess_hostSide hu
    rw [step_access_asserted hr hp hu, hreplies ⟨v, hop⟩]
    rfl
  · have hstep : ∀ w, readLocation (s.setPending rest) (locate s.dataBytes a.off.toNat) = some w → _ :=
      fun w hw => step_access_asserted hr hp (performAccess_read_some hwf hop hw)
    rcases Nat.lt_or_ge a.off.toNat 0x1000 with hlt | hge
    · exact ⟨_, hstep _ (hat.readLocation_of_lt hmap hlt), fun _ => rfl, fun hge => absurd hlt (Nat.not_lt.mpr hge)⟩
    · refine ⟨_, hstep _ (readLocation_of_ge hmap hge _), fun hlt => absurd hlt (Nat.not_lt.mpr hge), fun _ m hm => ?_⟩
      have hoff : a.off.toNat + m = dataBase + (a.off.toNat - 0x1000 + m) := by
        rw [show dataBase = 0x1000 from rfl]
        omega
      rw [State.extractLsb'_readWord _ _ hm, hoff, hat.readByte_data]
      rfl

/-! ### Every step -/

/-- Settles O20: by the three kinds of step; `State.takeReset` is what an event under reset ends in. -/
theorem stepsUnderResetEndAtReset : Obligations.StepsUnderResetEndAtReset := by
  intro s t hstep
  rcases step_next hstep with ⟨hp, rfl⟩ | ⟨e, rest, hp, ⟨l, rfl, rfl⟩ | ⟨a, u, rfl, hu, rfl⟩⟩
  · exact ⟨fun hne => absurd hp hne, fun l rest h => absurd (hp.symm.trans h) (by simp), fun _ => rfl⟩
  · refine ⟨fun _ hreset => ?_, fun l' rest' h => ?_, fun h => absurd hp (h l rest)⟩
    · rcases (s.setPending rest).driveReset_cases l with ⟨hr, rfl, _⟩ | ⟨_, hd⟩
      · rcases hreset with hr' | ⟨rest', h⟩
        · exact absurd (hr.symm.trans hr') (by decide)
        · exact absurd (hp.symm.trans h) (by simp)
      · rw [hd]
        exact rfl
    · cases hp.symm.trans h
      exact State.driveReset_resetAsserted _ l
  · have hlevel : u.resetAsserted = s.resetAsserted := (performAccess_hostSide hu).1
    refine ⟨fun _ hreset => ?_, fun l rest' h => absurd (hp.symm.trans h) (by simp), fun _ => ?_⟩
    · rcases hreset with hr | ⟨rest', h⟩
      · rw [State.holdReset_of_asserted (hlevel.trans hr)]
        exact u.takeReset_atReset
      · exact absurd (hp.symm.trans h) (by simp)
    · exact u.holdReset_resetAsserted.trans hlevel

/-- Settles O55: by the three kinds of step; only `State.takeReset` makes a new draw. -/
theorem stepKeepsParameters : Obligations.StepKeepsParameters := by
  intro s t hstep
  rcases step_next hstep with ⟨hp, rfl⟩ | ⟨e, rest, hp, ⟨l, rfl, rfl⟩ | ⟨a, u, rfl, hu, rfl⟩⟩ <;> rw [hp]
  · exact ⟨rfl, rfl⟩
  · refine ⟨State.driveReset_params _ l, ?_⟩
    cases l with
    | true => rw [State.driveReset_true]; rfl
    | false =>
      cases hr : s.resetAsserted with
      | true => rw [State.driveReset_of_asserted (s := s.setPending rest) hr]; rfl
      | false => rw [State.driveReset_false (s := s.setPending rest) hr]; rfl
  · obtain ⟨hlevel, hparams, hdraw, _, _⟩ := performAccess_hostSide hu
    refine ⟨u.holdReset_params.trans hparams, ?_⟩
    cases hr : s.resetAsserted with
    | true => rw [State.holdReset_of_asserted (hlevel.trans hr), State.takeReset_draw, hdraw]; rfl
    | false => rw [State.holdReset_of_released (hlevel.trans hr), hdraw]; rfl

/-! ### CTXV (R41) -/

/-- Bit 0 of `STATUS` says whether a context exists. -/
theorem getLsbD_statusWord_zero (s : State) : (statusWord s).getLsbD 0 = s.ctx.valid := by
  have hbit := congrArg (·.getLsbD 0) (statusFields s).1
  simpa [BitVec.getLsbD_extractLsb'] using hbit

/-- Settles O24: a context that is gone has changed, and CONFIGURE only makes contexts that exist
(`contextChangesOnlyByConfigure`). -/
theorem contextValidClearedOnlyByReset : Obligations.ContextValidClearedOnlyByReset := by
  intro s t hstep hset hclear
  rw [getLsbD_statusWord_zero] at hset hclear
  have hne : t.ctx ≠ s.ctx := fun h => by simp [h, hset] at hclear
  rcases contextChangesOnlyByConfigure s t hstep hne with ⟨hreset, _⟩ | ⟨_, _, _, _, _, _, hok⟩
  · exact hreset
  · obtain ⟨_, _, _, mode, _, hctx⟩ := configureResult_ok hok
    rw [hctx] at hclear
    exact absurd hclear (by simp [stagedContext])

end Sys2Proof.Machine
end
